-- ==== Sys2Proof/Config.lean ====
section
/-! DEFINITION. The parameters of rule R4 (`00_scope.md`): the sizes and constants the spec fixes, and the
parameters and draws it leaves open, which have no body here so that no proof can see their value. The types of
`Word.lean`, the fields of `State` and the operations are written with these names. -/

namespace Sys2Proof

/-- `MEM_SIZE`: bytes of the one memory (R4, R50). -/
abbrev Config.memSize : Nat := 4096

/-- `ADDR_MAX`: the highest valid byte address (R4, R50). -/
abbrev Config.addrMax : Nat := 0xFFF

/-- `FETCH_MAX`: the highest `pc` at which a fetch is valid (R4, R53). -/
abbrev Config.fetchMax : Nat := 0x0FFE

/-- `PROG_BASE`: load address of the program and reset value of `pc` (R4, R51). -/
abbrev Config.progBase : Nat := 0x200

/-- `PROG_MAX_LEN`: the longest program `load_program` accepts (R4, R181). -/
abbrev Config.progMaxLen : Nat := 3584

/-- `FONT_BASE`: address of the font table (R4, R180). -/
abbrev Config.fontBase : Nat := 0x000

/-- `FONT_LEN`: bytes of the font table (R4, R180). -/
abbrev Config.fontLen : Nat := 80

/-- `GLYPH_STRIDE`: bytes of one glyph, the multiplier of `FX29` (R4, R147). -/
abbrev Config.glyphStride : Nat := 5

/-- `XLEN`: bits of a general register, of a timer and of a byte of memory (R4, R20, R25, R50). -/
abbrev Config.xlen : Nat := 8

/-- `I_WIDTH`: bits of the index register (R4, R23). -/
abbrev Config.iWidth : Nat := 16

/-- `PC_WIDTH`: bits of the program counter (R4, R22). -/
abbrev Config.pcWidth : Nat := 16

/-- `ILEN`: bits of every instruction (R4, R70). -/
abbrev Config.ilen : Nat := 16

/-- `STACK_DEPTH`: entries of the call stack (R4, R24). -/
abbrev Config.stackDepth : Nat := 12

/-- The bits of a stack entry, given with `STACK_DEPTH` (R4, R24). -/
abbrev Config.stackWidth : Nat := 16

/-- `NUM_V`: general registers (R4, R20). -/
abbrev Config.numV : Nat := 16

/-- `NUM_KEYS`: keypad latches (R4, R27). -/
abbrev Config.numKeys : Nat := 16

/-- `FB_W`: columns of the framebuffer (R4, R28). -/
abbrev Config.fbW : Nat := 64

/-- `FB_H`: rows of the framebuffer (R4, R28). -/
abbrev Config.fbH : Nat := 32

/-- `FB_CELLS`: cells of the framebuffer (R4, R28). -/
abbrev Config.fbCells : Nat := 2048

/-- `PC_STEP`: how far `pc` advances for one fetched instruction (R4, R92). -/
abbrev Config.pcStep : Nat := 2

/-- `TIMER_HZ`: how many times a second the host ticks the timers; the core does not know it (R4, R184, R231). -/
abbrev Config.timerHz : Nat := 60

/-- `STEPS_PER_TICK` (R4, R231, decision D19): how many steps the host takes for one tick.
OPEN parameter, no body (log entry 16): only a claim that assumes the host's nominal schedule names it. -/
opaque Config.stepsPerTick : Nat

/-- `random_byte()` (R32, R109, decision D15): the free draw of the `k`-th executed `CXNN`.
FREE VALUE, no body: nothing is assumed of it, neither distribution nor independence (log entry 9). -/
opaque Config.randomByte : Nat → BitVec (delta% Config.xlen)

/-- `CLS_SETS_REDRAW` (R4, R160, decision D11): whether `00E0` sets the redraw flag.
OPEN parameter, no body (log entry 10); a claim about the spec's default takes `Config.clsSetsRedraw = false` as a hypothesis. -/
opaque Config.clsSetsRedraw : Bool

/-- `FONT[0..79]` (R4, R187, decision D16): the built-in font bytes.
OPEN parameter, no body: the source does not list the bytes (log entry 11). -/
opaque Config.font : Vector (BitVec (delta% Config.xlen)) (delta% Config.fontLen)

/-- The table rule R187 offers as a default for `FONT`.
PRESUMED (the spec marks it general knowledge): it is not what the model loads, it only lets a claim say
`Config.font = Config.customaryFont` as a hypothesis (log entry 11). -/
def Config.customaryFont : Vector (BitVec (delta% Config.xlen)) (delta% Config.fontLen) := #v[
  0xF0, 0x90, 0x90, 0x90, 0xF0,  0x20, 0x60, 0x20, 0x20, 0x70,  0xF0, 0x10, 0xF0, 0x80, 0xF0,  0xF0, 0x10, 0xF0, 0x10, 0xF0,
  0x90, 0x90, 0xF0, 0x10, 0x10,  0xF0, 0x80, 0xF0, 0x10, 0xF0,  0xF0, 0x80, 0xF0, 0x90, 0xF0,  0xF0, 0x10, 0x20, 0x40, 0x40,
  0xF0, 0x90, 0xF0, 0x90, 0xF0,  0xF0, 0x90, 0xF0, 0x10, 0xF0,  0xF0, 0x90, 0xF0, 0x90, 0x90,  0xE0, 0x90, 0xE0, 0x90, 0xE0,
  0xF0, 0x80, 0x80, 0x80, 0xF0,  0xE0, 0x90, 0x90, 0x90, 0xE0,  0xF0, 0x80, 0xF0, 0x80, 0xF0,  0xF0, 0x80, 0xF0, 0x80, 0x80]

end Sys2Proof
end

