-- ==== Sys2Proof/Word.lean ====
section
/-! DEFINITION. The word types of the CHIP-8 interpreter core (`00_scope.md` R4, R5, R7).

Register contents, addresses while they are computed and the fields of an instruction word are bit vectors,
because the spec adds, masks and shifts them; register and key numbers are names, so they are of a `Fin` type.

Every size is the constant of R4 of that name in `Config.lean`; `delta%` puts its value in place when the type is read,
so that the types proofs see carry numerals. -/

namespace Sys2Proof

/-- An 8-bit quantity: a general register, a timer, a byte of memory (R4 `XLEN`, R50). -/
abbrev Byte := BitVec (delta% Config.xlen)

/-- An instruction word, and `ERRINFO`, which can hold one (R4 `ILEN`, R30). -/
abbrev Word := BitVec (delta% Config.ilen)

/-- A value of `pc` (R4 `PC_WIDTH`). -/
abbrev PcWord := BitVec (delta% Config.pcWidth)

/-- A value of `I` (R4 `I_WIDTH`). -/
abbrev IndexWord := BitVec (delta% Config.iWidth)

/-- An entry of the call stack, which holds a value of `pc` (R4 `STACK_DEPTH`, R24). -/
abbrev StackWord := BitVec (delta% Config.stackWidth)

/-- The 12-bit immediate `nnn` of an instruction word (R5, R71). -/
abbrev Imm12 := BitVec 12

/-- A 4-bit field of an instruction word (R5, R12). -/
abbrev Nibble := BitVec 4

/-- The number of a general register, `V0` to `VF` (R20). -/
abbrev RegIdx := Fin (delta% Config.numV)

/-- The number of a key, 0 to F (R27). -/
abbrev KeyIdx := Fin (delta% Config.numKeys)

/-- The number of a slot of the call stack (R24). -/
abbrev StackIdx := Fin (delta% Config.stackDepth)

/-- How many entries of the call stack are valid, none to all (R24). -/
abbrev StackCount := Fin ((delta% Config.stackDepth) + 1)

/-- The sixteen general registers as one value (R20). -/
abbrev RegFile := Vector Byte (delta% Config.numV)

/-- The slots of the call stack as one value (R24). -/
abbrev StackSlots := Vector StackWord (delta% Config.stackDepth)

/-- The keypad latches as one value (R27). -/
abbrev Keypad := Vector Bool (delta% Config.numKeys)

/-- The framebuffer by rows: `FB_H` rows of `FB_W` cells (R28). -/
abbrev Screen := Vector (BitVec (delta% Config.fbW)) (delta% Config.fbH)

/-- `VF`, the general register that doubles as the flag (R21). -/
abbrev vf : RegIdx := 15

end Sys2Proof
end

