-- ==== Sys2Proof/Syntax.lean ====
section
/-! DEFINITION. The instructions: one constructor for each of the 35 rows of `spec/opcode_table.json`
(`30_encoding.md` R75), in the table's order, with the fields its pattern has (R71, R72). -/

namespace Sys2Proof

/-- The 35 patterns of R75. `x`, `y` are register numbers, `nn`, `nnn`, `n` the immediates of R73. -/
inductive Instr where
  /-- `00E0` `CLS` (R160) -/
  | cls
  /-- `00EE` `RET` (R120) -/
  | ret
  /-- `0NNN` `SYS nnn` (R121); well formed only when the word is not `00E0` or `00EE` (R74) -/
  | sys (nnn : Imm12)
  /-- `1NNN` `JP nnn` (R122) -/
  | jp (nnn : Imm12)
  /-- `2NNN` `CALL nnn` (R123) -/
  | call (nnn : Imm12)
  /-- `3XNN` `SE Vx, nn` (R124) -/
  | seImm (x : RegIdx) (nn : Byte)
  /-- `4XNN` `SNE Vx, nn` (R125) -/
  | sneImm (x : RegIdx) (nn : Byte)
  /-- `5XY0` `SE Vx, Vy` (R126) -/
  | seReg (x y : RegIdx)
  /-- `6XNN` `LD Vx, nn` (R140) -/
  | ldImm (x : RegIdx) (nn : Byte)
  /-- `7XNN` `ADD Vx, nn` (R100) -/
  | addImm (x : RegIdx) (nn : Byte)
  /-- `8XY0` `LD Vx, Vy` (R141) -/
  | ldReg (x y : RegIdx)
  /-- `8XY1` `OR Vx, Vy` (R101) -/
  | orReg (x y : RegIdx)
  /-- `8XY2` `AND Vx, Vy` (R102) -/
  | andReg (x y : RegIdx)
  /-- `8XY3` `XOR Vx, Vy` (R103) -/
  | xorReg (x y : RegIdx)
  /-- `8XY4` `ADD Vx, Vy` (R104) -/
  | addReg (x y : RegIdx)
  /-- `8XY5` `SUB Vx, Vy` (R105) -/
  | subReg (x y : RegIdx)
  /-- `8XY6` `SHR Vx` (R106); `y` is encoded and not used (R78) -/
  | shr (x y : RegIdx)
  /-- `8XY7` `SUBN Vx, Vy` (R107) -/
  | subnReg (x y : RegIdx)
  /-- `8XYE` `SHL Vx` (R108); `y` is encoded and not used (R78) -/
  | shl (x y : RegIdx)
  /-- `9XY0` `SNE Vx, Vy` (R127) -/
  | sneReg (x y : RegIdx)
  /-- `ANNN` `LD I, nnn` (R142) -/
  | ldI (nnn : Imm12)
  /-- `BNNN` `JP V0, nnn` (R128) -/
  | jpV0 (nnn : Imm12)
  /-- `CXNN` `RND Vx, nn` (R109) -/
  | rnd (x : RegIdx) (nn : Byte)
  /-- `DXYN` `DRW Vx, Vy, n` (R161) -/
  | drw (x y : RegIdx) (n : Nibble)
  /-- `EX9E` `SKP Vx` (R162) -/
  | skp (x : RegIdx)
  /-- `EXA1` `SKNP Vx` (R163) -/
  | sknp (x : RegIdx)
  /-- `FX07` `LD Vx, DT` (R143) -/
  | ldVxDT (x : RegIdx)
  /-- `FX0A` `LD Vx, K` (R164) -/
  | ldVxK (x : RegIdx)
  /-- `FX15` `LD DT, Vx` (R144) -/
  | ldDTVx (x : RegIdx)
  /-- `FX18` `LD ST, Vx` (R145) -/
  | ldSTVx (x : RegIdx)
  /-- `FX1E` `ADD I, Vx` (R146) -/
  | addI (x : RegIdx)
  /-- `FX29` `LD F, Vx` (R147) -/
  | ldF (x : RegIdx)
  /-- `FX33` `LD B, Vx` (R148) -/
  | ldB (x : RegIdx)
  /-- `FX55` `LD [I], Vx` (R149) -/
  | storeRegs (x : RegIdx)
  /-- `FX65` `LD Vx, [I]` (R150) -/
  | loadRegs (x : RegIdx)
  deriving DecidableEq, Repr

end Sys2Proof
end

