-- ==== Sys2Proof/WellFormed.lean ====
section
/-! DEFINITION. Which terms of `Instr` are instructions of the machine.

Every field is bounded by its type (R73: all sixteen register numbers and every immediate value are legal), so one
check is left: `0NNN` excludes the words `00E0` and `00EE`, which are other instructions (R74, R77). -/

namespace Sys2Proof

/-- The twelve bits `nnn` for which `0NNN` is `SYS` and not `CLS` or `RET` (R74, R77). -/
abbrev sysOperandOk (nnn : Imm12) : Prop := nnn ≠ 0x0E0#12 ∧ nnn ≠ 0x0EE#12

/-- An instruction of the machine (R74, R75): any term but the `SYS` spellings of `00E0` and `00EE`. -/
def Instr.wellFormed (i : Instr) : Bool :=
  match i with
  | .sys nnn => decide (sysOperandOk nnn)
  | .cls | .ret => true
  | .jp _ | .call _ | .ldI _ | .jpV0 _ => true
  | .seImm _ _ | .sneImm _ _ | .ldImm _ _ | .addImm _ _ | .rnd _ _ => true
  | .seReg _ _ | .ldReg _ _ | .orReg _ _ | .andReg _ _ | .xorReg _ _ | .addReg _ _ => true
  | .subReg _ _ | .shr _ _ | .subnReg _ _ | .shl _ _ | .sneReg _ _ => true
  | .drw _ _ _ => true
  | .skp _ | .sknp _ | .ldVxDT _ | .ldVxK _ | .ldDTVx _ | .ldSTVx _ => true
  | .addI _ | .ldF _ | .ldB _ | .storeRegs _ | .loadRegs _ => true

end Sys2Proof
end

