-- ==== Sys2Proof/Decode.lean ====
section
/-! DEFINITION. The decoder (R70 to R78), the encoder beside it, and the opcode map of R75 as rows of mask and match.

The decoder follows R74's own procedure: the top nibble, then the secondary nibble or byte. The rows restate R75, so
that the two presentations of the encoding can be compared. -/

namespace Sys2Proof

/-- Why a byte sequence is not an instruction. -/
inductive DecodeReject where
  /-- The word matches no pattern (R76); `step` raises `UnknownOpcode` with it (R192). -/
  | unknownOpcode (op : Word)
  /-- Fewer than two bytes were given; no fetch of R53 gives this. -/
  | truncated (bytes : List Byte)
  deriving DecidableEq, Repr

/-! ### Fields of an instruction word (R5, R71) -/

/-- `top = op[15:12]` -/
def fieldTop (op : Word) : Nibble := op.extractLsb' 12 4

/-- `op[11:8]`, the nibble of `x` -/
def fieldX (op : Word) : Nibble := op.extractLsb' 8 4

/-- `op[7:4]`, the nibble of `y` -/
def fieldY (op : Word) : Nibble := op.extractLsb' 4 4

/-- `n = op[3:0]` -/
def fieldN (op : Word) : Nibble := op.extractLsb' 0 4

/-- `nn = op[7:0]` -/
def fieldNN (op : Word) : Byte := op.extractLsb' 0 8

/-- `nnn = op[11:0]` -/
def fieldNNN (op : Word) : Imm12 := op.extractLsb' 0 12

/-- The register a nibble names; all sixteen values are legal (R73). -/
def regOf (b : Nibble) : RegIdx := b.toFin

/-- The nibble that names a register. -/
def nibOf (x : RegIdx) : Nibble := BitVec.ofFin x

/-! ### Decoding -/

/-- `top = 0`: the whole word is compared; every other word is `0NNN` (R74, R77). -/
def decode0 (op : Word) : Except DecodeReject Instr :=
  if op = 0x00E0#16 then .ok .cls
  else if op = 0x00EE#16 then .ok .ret
  else .ok (.sys (fieldNNN op))

/-- `top = 8`: the low nibble selects (R74). -/
def decode8 (op : Word) : Except DecodeReject Instr :=
  let x := regOf (fieldX op)
  let y := regOf (fieldY op)
  match (fieldN op).toNat with
  | 0x0 => .ok (.ldReg x y)
  | 0x1 => .ok (.orReg x y)
  | 0x2 => .ok (.andReg x y)
  | 0x3 => .ok (.xorReg x y)
  | 0x4 => .ok (.addReg x y)
  | 0x5 => .ok (.subReg x y)
  | 0x6 => .ok (.shr x y)
  | 0x7 => .ok (.subnReg x y)
  | 0xE => .ok (.shl x y)
  | _ => .error (.unknownOpcode op)

/-- `top = E`: the low byte selects (R74). -/
def decodeE (op : Word) : Except DecodeReject Instr :=
  let x := regOf (fieldX op)
  match (fieldNN op).toNat with
  | 0x9E => .ok (.skp x)
  | 0xA1 => .ok (.sknp x)
  | _ => .error (.unknownOpcode op)

/-- `top = F`: the low byte selects (R74). -/
def decodeF (op : Word) : Except DecodeReject Instr :=
  let x := regOf (fieldX op)
  match (fieldNN op).toNat with
  | 0x07 => .ok (.ldVxDT x)
  | 0x0A => .ok (.ldVxK x)
  | 0x15 => .ok (.ldDTVx x)
  | 0x18 => .ok (.ldSTVx x)
  | 0x1E => .ok (.addI x)
  | 0x29 => .ok (.ldF x)
  | 0x33 => .ok (.ldB x)
  | 0x55 => .ok (.storeRegs x)
  | 0x65 => .ok (.loadRegs x)
  | _ => .error (.unknownOpcode op)

/-- R74: "decode and dispatch based on the top nibble (and, for overloaded top nibbles ..., a secondary
nibble/byte)". Total: a word is one of the 35 patterns or `unknownOpcode`. `5XY0` and `9XY0` test the low nibble
(`90_conflicts.md` C11). -/
def decodeWord (op : Word) : Except DecodeReject Instr :=
  let x := regOf (fieldX op)
  let y := regOf (fieldY op)
  match (fieldTop op).toNat with
  | 0x0 => decode0 op
  | 0x1 => .ok (.jp (fieldNNN op))
  | 0x2 => .ok (.call (fieldNNN op))
  | 0x3 => .ok (.seImm x (fieldNN op))
  | 0x4 => .ok (.sneImm x (fieldNN op))
  | 0x5 => if fieldN op = 0#4 then .ok (.seReg x y) else .error (.unknownOpcode op)
  | 0x6 => .ok (.ldImm x (fieldNN op))
  | 0x7 => .ok (.addImm x (fieldNN op))
  | 0x8 => decode8 op
  | 0x9 => if fieldN op = 0#4 then .ok (.sneReg x y) else .error (.unknownOpcode op)
  | 0xA => .ok (.ldI (fieldNNN op))
  | 0xB => .ok (.jpV0 (fieldNNN op))
  | 0xC => .ok (.rnd x (fieldNN op))
  | 0xD => .ok (.drw x y (fieldN op))
  | 0xE => decodeE op
  | 0xF => decodeF op
  | _ => .error (.unknownOpcode op)

/-- The big-endian word of two bytes: the first is the more significant (R53, R70). -/
def wordOfBytes (hi lo : Byte) : Word := hi ++ lo

/-- Decode the instruction that stands first in a byte sequence, with the bytes after it (R70). -/
def decode (bytes : List Byte) : Except DecodeReject (Instr × List Byte) :=
  match bytes with
  | hi :: lo :: rest =>
    match decodeWord (wordOfBytes hi lo) with
    | .ok i => .ok (i, rest)
    | .error e => .error e
  | short => .error (.truncated short)

/-! ### Encoding -/

/-- Format `NNN` (R72). -/
def packNNN (top : Nibble) (nnn : Imm12) : Word := top ++ nnn

/-- Format `XNN` (R72). -/
def packXNN (top : Nibble) (x : RegIdx) (nn : Byte) : Word := (top ++ nibOf x) ++ nn

/-- Formats `XYF` and `XYN` (R72). -/
def packXYN (top : Nibble) (x y : RegIdx) (n : Nibble) : Word := ((top ++ nibOf x) ++ nibOf y) ++ n

/-- The word of an instruction, from the "match" column of R75 and the formats of R72. -/
def encode (i : Instr) : Word :=
  match i with
  | .cls => 0x00E0#16
  | .ret => 0x00EE#16
  | .sys nnn => packNNN 0x0#4 nnn
  | .jp nnn => packNNN 0x1#4 nnn
  | .call nnn => packNNN 0x2#4 nnn
  | .seImm x nn => packXNN 0x3#4 x nn
  | .sneImm x nn => packXNN 0x4#4 x nn
  | .seReg x y => packXYN 0x5#4 x y 0x0#4
  | .ldImm x nn => packXNN 0x6#4 x nn
  | .addImm x nn => packXNN 0x7#4 x nn
  | .ldReg x y => packXYN 0x8#4 x y 0x0#4
  | .orReg x y => packXYN 0x8#4 x y 0x1#4
  | .andReg x y => packXYN 0x8#4 x y 0x2#4
  | .xorReg x y => packXYN 0x8#4 x y 0x3#4
  | .addReg x y => packXYN 0x8#4 x y 0x4#4
  | .subReg x y => packXYN 0x8#4 x y 0x5#4
  | .shr x y => packXYN 0x8#4 x y 0x6#4
  | .subnReg x y => packXYN 0x8#4 x y 0x7#4
  | .shl x y => packXYN 0x8#4 x y 0xE#4
  | .sneReg x y => packXYN 0x9#4 x y 0x0#4
  | .ldI nnn => packNNN 0xA#4 nnn
  | .jpV0 nnn => packNNN 0xB#4 nnn
  | .rnd x nn => packXNN 0xC#4 x nn
  | .drw x y n => packXYN 0xD#4 x y n
  | .skp x => packXNN 0xE#4 x 0x9E#8
  | .sknp x => packXNN 0xE#4 x 0xA1#8
  | .ldVxDT x => packXNN 0xF#4 x 0x07#8
  | .ldVxK x => packXNN 0xF#4 x 0x0A#8
  | .ldDTVx x => packXNN 0xF#4 x 0x15#8
  | .ldSTVx x => packXNN 0xF#4 x 0x18#8
  | .addI x => packXNN 0xF#4 x 0x1E#8
  | .ldF x => packXNN 0xF#4 x 0x29#8
  | .ldB x => packXNN 0xF#4 x 0x33#8
  | .storeRegs x => packXNN 0xF#4 x 0x55#8
  | .loadRegs x => packXNN 0xF#4 x 0x65#8

/-! ### The opcode map of R75 -/

/-- A row of R75: the word `op` has this pattern when `op & mask = bits`. -/
structure OpcodeRow where
  mnemonic : String
  bits : Word
  mask : Word
  deriving DecidableEq, Repr

/-- Whether a word has a row's pattern (R74). -/
def OpcodeRow.fits (r : OpcodeRow) (op : Word) : Bool := op &&& r.mask == r.bits

/-- The row of R75 an instruction belongs to; the mnemonics are those of `spec/opcode_table.json`. -/
def rowOf (i : Instr) : OpcodeRow :=
  match i with
  | .cls => ⟨"CLS", 0x00E0, 0xFFFF⟩
  | .ret => ⟨"RET", 0x00EE, 0xFFFF⟩
  | .sys _ => ⟨"SYS_nnn", 0x0000, 0xF000⟩
  | .jp _ => ⟨"JP_nnn", 0x1000, 0xF000⟩
  | .call _ => ⟨"CALL_nnn", 0x2000, 0xF000⟩
  | .seImm _ _ => ⟨"SE_Vx__nn", 0x3000, 0xF000⟩
  | .sneImm _ _ => ⟨"SNE_Vx__nn", 0x4000, 0xF000⟩
  | .seReg _ _ => ⟨"SE_Vx__Vy", 0x5000, 0xF00F⟩
  | .ldImm _ _ => ⟨"LD_Vx__nn", 0x6000, 0xF000⟩
  | .addImm _ _ => ⟨"ADD_Vx__nn", 0x7000, 0xF000⟩
  | .ldReg _ _ => ⟨"LD_Vx__Vy", 0x8000, 0xF00F⟩
  | .orReg _ _ => ⟨"OR_Vx__Vy", 0x8001, 0xF00F⟩
  | .andReg _ _ => ⟨"AND_Vx__Vy", 0x8002, 0xF00F⟩
  | .xorReg _ _ => ⟨"XOR_Vx__Vy", 0x8003, 0xF00F⟩
  | .addReg _ _ => ⟨"ADD_Vx__Vy", 0x8004, 0xF00F⟩
  | .subReg _ _ => ⟨"SUB_Vx__Vy", 0x8005, 0xF00F⟩
  | .shr _ _ => ⟨"SHR_Vx", 0x8006, 0xF00F⟩
  | .subnReg _ _ => ⟨"SUBN_Vx__Vy", 0x8007, 0xF00F⟩
  | .shl _ _ => ⟨"SHL_Vx", 0x800E, 0xF00F⟩
  | .sneReg _ _ => ⟨"SNE_Vx__Vy", 0x9000, 0xF00F⟩
  | .ldI _ => ⟨"LD_I__nnn", 0xA000, 0xF000⟩
  | .jpV0 _ => ⟨"JP_V0__nnn", 0xB000, 0xF000⟩
  | .rnd _ _ => ⟨"RND_Vx__nn", 0xC000, 0xF000⟩
  | .drw _ _ _ => ⟨"DRW_Vx__Vy__n", 0xD000, 0xF000⟩
  | .skp _ => ⟨"SKP_Vx", 0xE09E, 0xF0FF⟩
  | .sknp _ => ⟨"SKNP_Vx", 0xE0A1, 0xF0FF⟩
  | .ldVxDT _ => ⟨"LD_Vx__DT", 0xF007, 0xF0FF⟩
  | .ldVxK _ => ⟨"LD_Vx__K", 0xF00A, 0xF0FF⟩
  | .ldDTVx _ => ⟨"LD_DT__Vx", 0xF015, 0xF0FF⟩
  | .ldSTVx _ => ⟨"LD_ST__Vx", 0xF018, 0xF0FF⟩
  | .addI _ => ⟨"ADD_I__Vx", 0xF01E, 0xF0FF⟩
  | .ldF _ => ⟨"LD_F__Vx", 0xF029, 0xF0FF⟩
  | .ldB _ => ⟨"LD_B__Vx", 0xF033, 0xF0FF⟩
  | .storeRegs _ => ⟨"LD__I___Vx", 0xF055, 0xF0FF⟩
  | .loadRegs _ => ⟨"LD_Vx___I", 0xF065, 0xF0FF⟩

/-- The 35 rows in R75's order; rows 1 and 2 stand before `0NNN`, over which they take priority (R74). -/
def opcodeMap : List OpcodeRow :=
  [.cls, .ret, .sys 0, .jp 0, .call 0, .seImm 0 0, .sneImm 0 0, .seReg 0 0, .ldImm 0 0, .addImm 0 0].map rowOf ++
  [.ldReg 0 0, .orReg 0 0, .andReg 0 0, .xorReg 0 0, .addReg 0 0, .subReg 0 0, .shr 0 0, .subnReg 0 0].map rowOf ++
  [.shl 0 0, .sneReg 0 0, .ldI 0, .jpV0 0, .rnd 0 0, .drw 0 0 0, .skp 0, .sknp 0].map rowOf ++
  [.ldVxDT 0, .ldVxK 0, .ldDTVx 0, .ldSTVx 0, .addI 0, .ldF 0, .ldB 0, .storeRegs 0, .loadRegs 0].map rowOf

/-! ### Words numbered as the opcode table numbers them -/

/-- The word of an instruction whose bits, numbered as the table numbers them, are the low `nbits` bits of `w`. -/
def tableWord (nbits w : Nat) : Word := BitVec.ofNat Config.ilen (w % 2 ^ nbits)

/-- Its two bytes as memory holds them, the more significant first (R53, R70). -/
def tableBytes (nbits w : Nat) : List Byte :=
  [(tableWord nbits w).extractLsb' 8 8, (tableWord nbits w).extractLsb' 0 8]

/-- The instruction the decoder reads from a word numbered as `spec/opcode_table.json` numbers it. -/
def decodeTableWord (nbits w : Nat) : Option Instr :=
  match decode (tableBytes nbits w) with
  | .ok (i, _) => some i
  | .error _ => none

end Sys2Proof
end

