-- ==== Sys2Proof/Machine/State.lean ====
section
/-! DEFINITION. The state of the machine (`10_state.md` R20 to R34), the reasons a step can stop, and the state after
reset (`70_reset_and_hazards.md` R220 to R222). -/

namespace Sys2Proof.Machine

/-- The eight fault kinds of `60_exceptions.md` R191 to R199. A fault is TAKEN: the step answers a next state with
`err` and `errInfo` written as R200 says (log entry 1), so no step of this model answers `Host.Outcome.fault`. -/
inductive Fault where
  /-- Code 1, raised by `SYS nnn` (R121, R191). Safe: the spec's own rule, and the core stops. -/
  | unsupportedOpcode
  /-- Code 2, raised by `step` when the word matches no pattern (R192). Safe: the spec's own rule, and the core stops. -/
  | unknownOpcode
  /-- Code 3, raised by the host operation `load_program` (R193). Safe: nothing is written and the core stops. -/
  | programTooLarge
  /-- Code 4, raised by `step` when `pc > 0x0FFE` (R194). Safe: the core stops. -/
  | fetchOutOfRange
  /-- Code 5, raised by `DXYN`, `FX33`, `FX55`, `FX65` (R195). Safe: nothing is written and the core stops. -/
  | dataAddressOutOfRange
  /-- Code 6, raised by `2NNN` with twelve entries on the stack (R196). Safe: nothing is written and the core stops. -/
  | stackOverflow
  /-- Code 7, raised by `00EE` with an empty stack (R197). Safe: nothing is written and the core stops. -/
  | stackUnderflow
  /-- Code 8, raised by `EX9E`, `EXA1` with `V[x] > 15` (R198). Safe: the core stops. -/
  | keyIndexOutOfRange
  deriving DecidableEq, Repr

/-- Why a step has no meaning. Every instruction of the table has its meaning, so nothing answers this. -/
inductive Refusal where
  /-- An instruction without a meaning, by its mnemonic; raised by no arm of `exec`. Safe: nothing can be proved through it. -/
  | notModelled (mnemonic : String)
  deriving DecidableEq, Repr

/-- Memory as plain data: (address, byte) pairs in the canonical form of `Memory.wf` (R31, R50; log entry 8). -/
abbrev Memory := List Host.Cell

/-- Every piece of state of R34, under the spec's names, and one field of the model's own (`draws`). -/
structure State where
  /-- `V[0..15]` (R20, R21) -/
  v : RegFile
  /-- `pc` (R22) -/
  pc : PcWord
  /-- `I` (R23) -/
  I : IndexWord
  /-- `sp`, the number of valid stack entries, 0 to 12 (R24) -/
  sp : StackCount
  /-- `stack[0..11]` (R24) -/
  stack : StackSlots
  /-- `DT` (R25) -/
  dt : Byte
  /-- `ST` (R26) -/
  st : Byte
  /-- `key[0..15]` (R27) -/
  key : Keypad
  /-- `fb[0..2047]` as 32 rows of 64 cells: cell `y*64 + x` is bit `x` of row `y` (R28; log entry 14) -/
  fb : Screen
  /-- `redraw` (R29) -/
  redraw : Bool
  /-- `ERR` by the names of R199: `none` is code 0, running (R30; log entry 14) -/
  err : Option Fault
  /-- `ERRINFO` (R30) -/
  errInfo : Word
  /-- `mem[0..4095]` (R31, R50) -/
  mem : Memory
  /-- MODEL'S OWN: how many free draws `CXNN` has taken (R32, R109; log entry 9) -/
  draws : Nat
  deriving DecidableEq, Repr

/-- The machine right after `reset()` on a fresh core (R220 to R222): `pc`, `sp`, `I`, `fb`, `ERR` as the spec gives
them; every other value is a DESIGN CHOICE (log entries 3 to 9). -/
def State.reset : State where
  v := Vector.replicate Config.numV 0
  pc := BitVec.ofNat Config.pcWidth Config.progBase
  I := 0
  sp := 0
  stack := Vector.replicate Config.stackDepth 0
  dt := 0
  st := 0
  key := Vector.replicate Config.numKeys false
  fb := Vector.replicate Config.fbH 0
  redraw := false
  err := none
  errInfo := 0
  mem := []
  draws := 0

end Sys2Proof.Machine
end

