-- ==== Sys2Proof/Machine/Ops.lean ====
section
/-! DEFINITION. The named operations over the state: memory, registers, stack, timers, keypad, framebuffer, taking a
fault, and the fetch of an instruction word. Every instruction and every host operation is written over these. -/

namespace Sys2Proof.Machine

/-- What one `step` answers. -/
abbrev Result := Host.Outcome State Fault Refusal

/-! ### Memory (`20_memory.md` R50 to R56) -/

/-- What an address no entry lists reads as. DESIGN CHOICE, unsafe: the spec gives memory no power-on value
(R220; log entry 8). -/
def Memory.unlisted : Byte := 0#8

/-- The byte at an address (R52 `MemRead`); the bound is checked before, by `dataRangeFits` and `fetchable`. -/
def Memory.read (m : Memory) (a : Nat) : Byte :=
  match m with
  | [] => Memory.unlisted
  | (k, b) :: rest => if a = k then b else Memory.read rest a

/-- Store one byte (R52 `MemWrite`), keeping the canonical form. -/
def Memory.write (m : Memory) (a : Nat) (b : Byte) : Memory :=
  match m with
  | [] => if b = Memory.unlisted then [] else [(a, b)]
  | (k, c) :: rest =>
    if a < k then (if b = Memory.unlisted then (k, c) :: rest else (a, b) :: (k, c) :: rest)
    else if a = k then (if b = Memory.unlisted then rest else (a, b) :: rest)
    else (k, c) :: Memory.write rest a b

/-- The canonical form from an address on: addresses strictly rising, all below 4096 (R50), and no entry that
repeats what an unlisted address reads as. -/
def Memory.wfFrom (lo : Nat) (m : Memory) : Bool :=
  match m with
  | [] => true
  | (k, b) :: rest =>
    decide (lo ≤ k) && decide (k < Config.memSize) && decide (b ≠ Memory.unlisted) && Memory.wfFrom (k + 1) rest

/-- The canonical form of memory: equal memories are equal data. -/
def Memory.wf (m : Memory) : Bool := Memory.wfFrom 0 m

/-- Store bytes at ascending addresses (R54). -/
def Memory.writeBytes (m : Memory) (a : Nat) (bytes : List Byte) : Memory :=
  match bytes with
  | [] => m
  | b :: rest => Memory.writeBytes (Memory.write m a b) (a + 1) rest

/-- The byte of memory at an address (R52). -/
def State.readByte (s : State) (a : Nat) : Byte := Memory.read s.mem a

/-- Store bytes at ascending addresses from `a` (R54). -/
def State.writeBytes (s : State) (a : Nat) (bytes : List Byte) : State :=
  { s with mem := Memory.writeBytes s.mem a bytes }

/-! ### General registers (R20, R21) -/

/-- `V[r]` -/
def State.getV (s : State) (r : RegIdx) : Byte := s.v[r]

/-- `V[r] <- b` -/
def State.setV (s : State) (r : RegIdx) (b : Byte) : State := { s with v := s.v.set r.val b r.isLt }

/-! ### Program counter and index register (R22, R23) -/

/-- `pc <- target`; no target is checked (R131). -/
def State.jump (s : State) (target : PcWord) : State := { s with pc := target }

/-- Skip the next instruction: `pc <- (pc + 2) mod 65536` on the advanced `pc` (R129). -/
def State.skip (s : State) : State := { s with pc := s.pc + BitVec.ofNat Config.pcWidth Config.pcStep }

/-- Skip when the condition holds (R129). -/
def State.skipIf (s : State) (c : Bool) : State := if c then s.skip else s

/-- `pc <- (pc - 2) mod 65536`: back to the instruction in progress (R164). -/
def State.rewind (s : State) : State := { s with pc := s.pc - BitVec.ofNat Config.pcWidth Config.pcStep }

/-- `I <- w` -/
def State.setI (s : State) (w : IndexWord) : State := { s with I := w }

/-! ### Call stack (R24) -/

/-- `stack[k]` -/
def State.slot (s : State) (k : StackIdx) : StackWord := s.stack[k]

/-- Push: `stack[sp] <- w; sp <- sp + 1`; nothing when all twelve slots are in use. -/
def State.push (s : State) (w : StackWord) : Option State :=
  if h : s.sp.val < Config.stackDepth then
    some { s with stack := s.stack.set s.sp.val w h, sp := ⟨s.sp.val + 1, Nat.succ_lt_succ h⟩ }
  else none

/-- Pop: `sp <- sp - 1` and the value of `stack[sp]`; nothing when the stack is empty. The slot keeps its content. -/
def State.pop (s : State) : Option (StackWord × State) :=
  if 0 < s.sp.val then
    have h : s.sp.val - 1 < Config.stackDepth := by
      have := s.sp.isLt
      simp only [Config.stackDepth]
      omega
    some (s.stack[s.sp.val - 1], { s with sp := ⟨s.sp.val - 1, Nat.lt_succ_of_lt h⟩ })
  else none

/-! ### Timers (R25, R26, R184) -/

/-- `DT <- b` -/
def State.setDT (s : State) (b : Byte) : State := { s with dt := b }

/-- `ST <- b` -/
def State.setST (s : State) (b : Byte) : State := { s with st := b }

/-- One tick of one counter: down to zero, never below (R184). -/
def tickDown (b : Byte) : Byte := if b = 0#8 then b else b - 1#8

/-- `sound_active = (ST != 0)` (R26) -/
def State.soundActive (s : State) : Bool := decide (s.st ≠ 0#8)

/-! ### Keypad (R27) -/

/-- `key[k]` -/
def State.keyIsDown (s : State) (k : KeyIdx) : Bool := s.key[k]

/-- `key[k] <- d` -/
def State.setKey (s : State) (k : KeyIdx) (d : Bool) : State := { s with key := s.key.set k.val d k.isLt }

/-- Scan keys 0 to 15; a later pressed key overwrites an earlier one (R164). -/
def State.scanKeys (s : State) : Option KeyIdx :=
  (List.finRange Config.numKeys).foldl (fun found k => if s.keyIsDown k then some k else found) none

/-! ### Framebuffer and redraw flag (R28, R29) -/

/-- The index of the cell of pixel `(px, py)`: `py*64 + px` (R28). -/
def cellOf (px py : Nat) : Nat := py * Config.fbW + px

/-- Every cell lies in one of the rows (R28). -/
theorem row_lt {c : Nat} (h : c < Config.fbCells) : c / Config.fbW < Config.fbH := by
  simp only [Config.fbCells, Config.fbW, Config.fbH] at *
  omega

/-- `fb[c]`, the cell at column `c mod 64` of row `c / 64` (R28). -/
def State.cell (s : State) (c : Nat) : Bool :=
  if h : c < Config.fbCells then
    have hr := row_lt h
    s.fb[c / Config.fbW].getLsbD (c % Config.fbW)
  else false

/-- `fb[c] <- fb[c] ^ 1` (R161) -/
def State.flipCell (s : State) (c : Nat) : State :=
  if h : c < Config.fbCells then
    have hr := row_lt h
    { s with fb := s.fb.set (c / Config.fbW) (s.fb[c / Config.fbW] ^^^ BitVec.twoPow Config.fbW (c % Config.fbW)) hr }
  else s

/-- Every cell to 0 (R160, R221). -/
def State.clearCells (s : State) : State := { s with fb := Vector.replicate Config.fbH 0 }

/-- `redraw <- r` -/
def State.setRedraw (s : State) (r : Bool) : State := { s with redraw := r }

/-! ### Free draws (R32, R109) -/

/-- `random_byte()`: the next free draw, and the state with that draw taken (log entry 9). -/
def State.drawByte (s : State) : Byte × State := (Config.randomByte s.draws, { s with draws := s.draws + 1 })

/-! ### Taking a fault, and leaving the halted condition (`60_exceptions.md` R199, R200, R203) -/

/-- The code of a fault in `ERR` (R199). -/
def faultCode (f : Fault) : BitVec 4 :=
  match f with
  | .unsupportedOpcode => 1
  | .unknownOpcode => 2
  | .programTooLarge => 3
  | .fetchOutOfRange => 4
  | .dataAddressOutOfRange => 5
  | .stackOverflow => 6
  | .stackUnderflow => 7
  | .keyIndexOutOfRange => 8

/-- `ERR` as the 4-bit code the host reads (R30, R199). -/
def State.errCode (s : State) : BitVec 4 :=
  match s.err with
  | none => 0
  | some f => faultCode f

/-- Fault entry `raise F(info)`: `ERR <- code(F)` and `ERRINFO <- info mod 65536`; nothing else is saved and control
goes nowhere (R200). -/
def State.latch (s : State) (f : Fault) (info : Nat) : State :=
  { s with err := some f, errInfo := BitVec.ofNat Config.ilen info }

/-- An instruction that raises a fault ends in the state with the fault latched (R200; log entry 1). -/
def raise (f : Fault) (info : Nat) (s : State) : Result := .next (s.latch f info)

/-- `ERR <- 0`, the only way out of the halted condition; `reset()` alone does it, no instruction returns from a
fault (R203, R221). -/
def State.clearErr (s : State) : State := { s with err := none }

/-! ### Fetch (`40_step_cycle.md` R91 to R93) -/

/-- A fetch is valid only for `pc <= 0x0FFE` (R53). -/
def State.fetchable (s : State) : Bool := decide (s.pc.toNat ≤ Config.fetchMax)

/-- `op = mem[pc] * 256 + mem[pc + 1]`, big-endian (R53); an odd `pc` is read alike (R55). -/
def State.fetchWord (s : State) : Word := wordOfBytes (s.readByte s.pc.toNat) (s.readByte (s.pc.toNat + 1))

/-- ADVANCE and CLEAR: `pc <- (pc + 2) mod 65536`, `redraw <- 0` (R92, R93). -/
def State.advance (s : State) : State := { s with pc := s.pc + BitVec.ofNat Config.pcWidth Config.pcStep, redraw := false }

end Sys2Proof.Machine
end

