-- ==== Sys2Proof/Machine/Flags.lean ====
section
/-! DEFINITION. Every flag the machine computes goes to `VF` (R21). Operands are taken as integers, computed exactly
and compared (R6, R110). -/

namespace Sys2Proof.Machine

/-- A flag value: 1 or 0 (R21). -/
def flagOf (c : Bool) : Byte := if c then 1#8 else 0#8

/-- The carry of `a + b`: the true sum exceeds 255 (R104). -/
def carryFlag (a b : Byte) : Byte := flagOf (decide (a.toNat + b.toNat > 255))

/-- `a` strictly greater than `b` (R105, R107, R110). -/
def greaterFlag (a b : Byte) : Byte := flagOf (decide (a.toNat > b.toNat))

/-- The bit `>> 1` shifts out: bit 0 (R106). -/
def lowBitFlag (a : Byte) : Byte := flagOf (a.getLsbD 0)

/-- The bit `<< 1` shifts out: bit 7 (R108). -/
def highBitFlag (a : Byte) : Byte := flagOf (a.getLsbD 7)

/-- `VF <- flag`, then `V[x] <- result`, the result computed on the state with the flag already written
(R8, R111, decision D1). -/
def flagThenResult (x : RegIdx) (flag : Byte) (result : State → Byte) (s : State) : State :=
  let t := s.setV vf flag
  t.setV x (result t)

end Sys2Proof.Machine
end

