-- ==== Sys2Proof/Machine/Arithmetic.lean ====
section
/-! DEFINITION. The meanings of `41_arithmetic_logic.md`, each after the prologue of R90. -/

namespace Sys2Proof.Machine

/-- `7XNN` `ADD Vx, nn`: `V[x] <- (V[x] + nn) mod 256`, no flag (R100). -/
def execAddImm (x : RegIdx) (nn : Byte) (s : State) : Result := .next (s.setV x (s.getV x + nn))

/-- `8XY1` `OR Vx, Vy`, no flag (R101). -/
def execOrReg (x y : RegIdx) (s : State) : Result := .next (s.setV x (s.getV x ||| s.getV y))

/-- `8XY2` `AND Vx, Vy`, no flag (R102). -/
def execAndReg (x y : RegIdx) (s : State) : Result := .next (s.setV x (s.getV x &&& s.getV y))

/-- `8XY3` `XOR Vx, Vy`, no flag (R103). -/
def execXorReg (x y : RegIdx) (s : State) : Result := .next (s.setV x (s.getV x ^^^ s.getV y))

/-- `8XY4` `ADD Vx, Vy`: carry to `VF`, then the sum (R104, R111). -/
def execAddReg (x y : RegIdx) (s : State) : Result :=
  .next (flagThenResult x (carryFlag (s.getV x) (s.getV y)) (fun t => t.getV x + t.getV y) s)

/-- `8XY5` `SUB Vx, Vy`: strictly-greater to `VF`, then `V[x] - V[y]` (R105, R111). -/
def execSubReg (x y : RegIdx) (s : State) : Result :=
  .next (flagThenResult x (greaterFlag (s.getV x) (s.getV y)) (fun t => t.getV x - t.getV y) s)

/-- `8XY6` `SHR Vx`: bit 0 to `VF`, then `V[x] >> 1`; `y` is not used (R106, R78). -/
def execShr (x _y : RegIdx) (s : State) : Result :=
  .next (flagThenResult x (lowBitFlag (s.getV x)) (fun t => t.getV x >>> 1) s)

/-- `8XY7` `SUBN Vx, Vy`: strictly-greater to `VF`, then `V[y] - V[x]` (R107, R111). -/
def execSubnReg (x y : RegIdx) (s : State) : Result :=
  .next (flagThenResult x (greaterFlag (s.getV y) (s.getV x)) (fun t => t.getV y - t.getV x) s)

/-- `8XYE` `SHL Vx`: bit 7 to `VF`, then `V[x] << 1`; `y` is not used (R108, R78). -/
def execShl (x _y : RegIdx) (s : State) : Result :=
  .next (flagThenResult x (highBitFlag (s.getV x)) (fun t => t.getV x <<< 1) s)

/-- `CXNN` `RND Vx, nn`: `V[x] <- random_byte() & nn`, no flag (R109; log entry 9). -/
def execRnd (x : RegIdx) (nn : Byte) (s : State) : Result :=
  let (r, t) := s.drawByte
  .next (t.setV x (r &&& nn))

end Sys2Proof.Machine
end

