-- ==== Sys2Proof/Machine/Operands.lean ====
section
/-! DEFINITION. The operand forms of R73 and the one addressing mode of R151: zero-extended immediates and registers,
the memory range `I .. I + len - 1` with its bound, the register range `V0..Vx`, and the digits of `FX33`. -/

namespace Sys2Proof.Machine

/-! ### Immediates and widened registers (R73; R7 `zext`) -/

/-- `zext_16(nnn)` -/
def wordOfImm (nnn : Imm12) : Word := nnn.zeroExtend 16

/-- `zext_16(V[x])` -/
def wordOfByte (b : Byte) : Word := b.zeroExtend 16

/-- `V[x]` as a key number: only 0 to 15 is one (R162, decision D6). -/
def keyOfByte (b : Byte) : Option KeyIdx := if h : b.toNat < Config.numKeys then some ⟨b.toNat, h⟩ else none

/-- A key number as a register value (R164). -/
def byteOfKey (k : KeyIdx) : Byte := BitVec.ofNat 8 k.val

/-! ### Memory operands (R151, R52) -/

/-- The effective address `I + k`, an integer that nothing reduces (R151). -/
def dataAddr (s : State) (k : Nat) : Nat := s.I.toNat + k

/-- Whether the `len` bytes from `I` all lie within memory; with `len = 0` no address is formed (R52, R161). -/
def dataRangeFits (s : State) (len : Nat) : Bool := decide (len = 0 ∨ dataAddr s (len - 1) ≤ Config.addrMax)

/-- The lowest address of a range from `I` that lies outside memory: `max(I, 0x1000)` (R52, R195). -/
def offendingAddr (s : State) : Nat := max s.I.toNat Config.memSize

/-- An instruction over the `len` bytes from `I`: the whole range is checked before its first effect (R52, R195). -/
def withDataRange (len : Nat) (s : State) (effect : State → State) : Result :=
  if dataRangeFits s len then .next (effect s) else raise .dataAddressOutOfRange (offendingAddr s) s

/-! ### The register range `V0..Vx` (R73, R149, R150) -/

/-- The registers `V0` to `Vx`, in order. -/
def regsUpTo (x : RegIdx) : List RegIdx := (List.finRange Config.numV).take (x.val + 1)

/-- Load registers, each `V[k] <- MemRead(I + k)` (R150). -/
def loadRegList (regs : List RegIdx) (s : State) : State :=
  regs.foldl (fun t k => t.setV k (t.readByte (dataAddr t k.val))) s

/-! ### The digits of `FX33` (R148) -/

/-- Hundreds, tens and ones digit of a byte, in the order they are stored. -/
def bcdDigits (b : Byte) : List Byte :=
  [BitVec.ofNat 8 (b.toNat / 100), BitVec.ofNat 8 (b.toNat / 10 % 10), BitVec.ofNat 8 (b.toNat % 10)]

/-! ### The glyph address of `FX29` (R147) -/

/-- `V[x] * 5`, of the whole byte. -/
def glyphAddr (b : Byte) : Word := BitVec.ofNat 16 (b.toNat * Config.glyphStride)

end Sys2Proof.Machine
end

