-- ==== Sys2Proof/Machine/Control.lean ====
section
/-! DEFINITION. The meanings of `42_control_flow.md`, each after the prologue of R90: `pc` is already the
instruction's address plus 2. -/

namespace Sys2Proof.Machine

/-- `00EE` `RET`: pop into `pc`, or `StackUnderflow(0x00EE)` (R120, R197). -/
def execRet (s : State) : Result :=
  match s.pop with
  | some (w, t) => .next (t.jump w)
  | none => raise .stackUnderflow (encode .ret).toNat s

/-- `0NNN` `SYS nnn`: always `UnsupportedOpcode(op)` (R121, R191). -/
def execSys (nnn : Imm12) (s : State) : Result := raise .unsupportedOpcode (encode (.sys nnn)).toNat s

/-- `1NNN` `JP nnn` (R122). -/
def execJp (nnn : Imm12) (s : State) : Result := .next (s.jump (wordOfImm nnn))

/-- `2NNN` `CALL nnn`: push the advanced `pc` and jump, or `StackOverflow(op)` (R123, R196). -/
def execCall (nnn : Imm12) (s : State) : Result :=
  match s.push s.pc with
  | some t => .next (t.jump (wordOfImm nnn))
  | none => raise .stackOverflow (encode (.call nnn)).toNat s

/-- `3XNN` `SE Vx, nn` (R124). -/
def execSeImm (x : RegIdx) (nn : Byte) (s : State) : Result := .next (s.skipIf (decide (s.getV x = nn)))

/-- `4XNN` `SNE Vx, nn` (R125). -/
def execSneImm (x : RegIdx) (nn : Byte) (s : State) : Result := .next (s.skipIf (decide (s.getV x ≠ nn)))

/-- `5XY0` `SE Vx, Vy` (R126). -/
def execSeReg (x y : RegIdx) (s : State) : Result := .next (s.skipIf (decide (s.getV x = s.getV y)))

/-- `9XY0` `SNE Vx, Vy` (R127). -/
def execSneReg (x y : RegIdx) (s : State) : Result := .next (s.skipIf (decide (s.getV x ≠ s.getV y)))

/-- `BNNN` `JP V0, nnn`: `pc <- (nnn + V[0]) mod 65536`, not reduced to 12 bits (R128). -/
def execJpV0 (nnn : Imm12) (s : State) : Result := .next (s.jump (wordOfImm nnn + wordOfByte (s.getV 0)))

end Sys2Proof.Machine
end

