-- ==== Sys2Proof/Machine/Graphics.lean ====
section
/-! DEFINITION. The meanings of `44_graphics_input.md`, each after the prologue of R90: the sprite blitter with its
collision detector, and the keypad instructions. -/

namespace Sys2Proof.Machine

/-! ### The sprite blitter (R161, R166) -/

/-- The pixel of column `col` of a sprite row: bit `7 - col` (R166). -/
def spriteBit (b : Byte) (col : Nat) : Bool := b.getLsbD (7 - col)

/-- The target cell of a set bit, both coordinates wrapping; `V[x]`, `V[y]` are read here, afresh for every set bit
(R161, decision D22). -/
def targetCell (x y : RegIdx) (row col : Nat) (s : State) : Nat :=
  cellOf (((s.getV x).toNat + col) % Config.fbW) (((s.getV y).toNat + row) % Config.fbH)

/-- One set bit: a target cell that is 1 sets `VF` to 1, and the cell is flipped (R161). -/
def drawBit (x y : RegIdx) (row col : Nat) (s : State) : State :=
  let c := targetCell x y row col s
  let t := if s.cell c then s.setV vf (flagOf true) else s
  t.flipCell c

/-- One sprite row `b`, columns left to right (R161). -/
def drawRow (x y : RegIdx) (row : Nat) (b : Byte) (s : State) : State :=
  (List.range 8).foldl (fun t col => if spriteBit b col then drawBit x y row col t else t) s

/-- `n` rows, ascending, row `r` read at `I + r` (R161, R166). -/
def drawRows (x y : RegIdx) (n : Nat) (s : State) : State :=
  (List.range n).foldl (fun t row => drawRow x y row (t.readByte (dataAddr t row)) t) s

/-! ### Graphics -/

/-- `00E0` `CLS`: every cell to 0; `redraw` only under the parameter `CLS_SETS_REDRAW` (R160, decision D11;
log entry 10). -/
def execCls (s : State) : Result :=
  .next (s.clearCells.setRedraw (if Config.clsSetsRedraw then true else s.redraw))

/-- `DXYN` `DRW Vx, Vy, n`: `VF <- 0`, draw, `redraw <- 1`, or `DataAddressOutOfRange` before any write (R161). -/
def execDrw (x y : RegIdx) (n : Nibble) (s : State) : Result :=
  withDataRange n.toNat s (fun t => (drawRows x y n.toNat (t.setV vf (flagOf false))).setRedraw true)

/-! ### Keypad -/

/-- `EX9E` `SKP Vx`, or `KeyIndexOutOfRange(V[x])` (R162, R198). -/
def execSkp (x : RegIdx) (s : State) : Result :=
  match keyOfByte (s.getV x) with
  | some k => .next (s.skipIf (s.keyIsDown k))
  | none => raise .keyIndexOutOfRange (s.getV x).toNat s

/-- `EXA1` `SKNP Vx`, or `KeyIndexOutOfRange(V[x])` (R163, R198). -/
def execSknp (x : RegIdx) (s : State) : Result :=
  match keyOfByte (s.getV x) with
  | some k => .next (s.skipIf (!s.keyIsDown k))
  | none => raise .keyIndexOutOfRange (s.getV x).toNat s

/-- `FX0A` `LD Vx, K`: the highest pressed key to `V[x]`, or `pc` back to this instruction (R164). -/
def execLdVxK (x : RegIdx) (s : State) : Result :=
  match s.scanKeys with
  | some k => .next (s.setV x (byteOfKey k))
  | none => .next s.rewind

end Sys2Proof.Machine
end

