-- ==== Sys2Proof/Machine/Transfer.lean ====
section
/-! DEFINITION. The meanings of `43_memory_register_transfer.md`, each after the prologue of R90. -/

namespace Sys2Proof.Machine

/-- `6XNN` `LD Vx, nn` (R140). -/
def execLdImm (x : RegIdx) (nn : Byte) (s : State) : Result := .next (s.setV x nn)

/-- `8XY0` `LD Vx, Vy` (R141). -/
def execLdReg (x y : RegIdx) (s : State) : Result := .next (s.setV x (s.getV y))

/-- `ANNN` `LD I, nnn` (R142). -/
def execLdI (nnn : Imm12) (s : State) : Result := .next (s.setI (wordOfImm nnn))

/-- `FX1E` `ADD I, Vx`: modulo 65536, no flag (R146). -/
def execAddI (x : RegIdx) (s : State) : Result := .next (s.setI (s.I + wordOfByte (s.getV x)))

/-- `FX29` `LD F, Vx`: `I <- V[x] * 5` (R147). -/
def execLdF (x : RegIdx) (s : State) : Result := .next (s.setI (glyphAddr (s.getV x)))

/-- `FX07` `LD Vx, DT` (R143). -/
def execLdVxDT (x : RegIdx) (s : State) : Result := .next (s.setV x s.dt)

/-- `FX15` `LD DT, Vx` (R144). -/
def execLdDTVx (x : RegIdx) (s : State) : Result := .next (s.setDT (s.getV x))

/-- `FX18` `LD ST, Vx` (R145). -/
def execLdSTVx (x : RegIdx) (s : State) : Result := .next (s.setST (s.getV x))

/-- `FX33` `LD B, Vx`: the three digits to `I`, `I+1`, `I+2`, or `DataAddressOutOfRange` (R148). -/
def execLdB (x : RegIdx) (s : State) : Result :=
  withDataRange 3 s (fun t => t.writeBytes (dataAddr t 0) (bcdDigits (t.getV x)))

/-- `FX55` `LD [I], Vx`: `V0..Vx` to `I .. I+x`, or `DataAddressOutOfRange`; `I` is unchanged (R149). -/
def execStoreRegs (x : RegIdx) (s : State) : Result :=
  withDataRange (x.val + 1) s (fun t => t.writeBytes (dataAddr t 0) ((regsUpTo x).map t.getV))

/-- `FX65` `LD Vx, [I]`: `V0..Vx` from `I .. I+x`, or `DataAddressOutOfRange`; `I` is unchanged (R150). -/
def execLoadRegs (x : RegIdx) (s : State) : Result := withDataRange (x.val + 1) s (loadRegList (regsUpTo x))

end Sys2Proof.Machine
end

