-- ==== Sys2Proof/Machine/Step.lean ====
section
/-! DEFINITION. The operation `step()` of R90. -/

namespace Sys2Proof.Machine

/-- `step()` (R90): HALTED? (R96), FETCH (R91), ADVANCE (R92), CLEAR (R93), DECODE (R74, R95), EXECUTE (R94).
A halted core changes nothing at all (log entry 2). -/
def step (s : State) : Host.Outcome State Fault Refusal :=
  if s.err.isSome then .next s
  else if s.fetchable then
    match decodeWord s.fetchWord with
    | .ok i => exec i s.advance
    | .error _ => raise .unknownOpcode s.fetchWord.toNat s.advance
  else raise .fetchOutOfRange s.pc.toNat s

/-- The state with an instruction (numbered as the opcode table numbers it) stored where `step` fetches next.
Where the fetch needs it, `pc` is put back to `PROG_BASE` and the error latch is cleared; nothing else changes
(log entry 12). -/
def State.withFetchWord (s : State) (nbits w : Nat) : State :=
  let pc : PcWord := if s.fetchable then s.pc else BitVec.ofNat Config.pcWidth Config.progBase
  { s with pc := pc, err := none, mem := Memory.writeBytes s.mem pc.toNat (tableBytes nbits w) }

end Sys2Proof.Machine
end

