-- ==== Sys2Proof/Machine/HostOps.lean ====
section
/-! DEFINITION. The host's operations on the core and the outputs it reads (`45_host_operations.md` R180 to R186,
`70_reset_and_hazards.md` R221), and executions as sequences of operations (R10; log entry 13). -/

namespace Sys2Proof.Machine

/-! ### The operations -/

/-- `reset()`: `pc`, `sp`, `I`, `fb` and `ERR`; everything else keeps its value (R221). -/
def hostReset (s : State) : State :=
  let t := s.clearCells.clearErr
  { t with pc := BitVec.ofNat Config.pcWidth Config.progBase, sp := 0, I := 0 }

/-- `load_fonts()`: the 80 font bytes to addresses 0 to 79 (R180, R187; log entry 11). -/
def hostLoadFonts (s : State) : State := s.writeBytes Config.fontBase Config.font.toList

/-- `load_program(bytes)`: the bytes to memory from 0x200, or `ProgramTooLarge(len)` with nothing written
(R181, R193). -/
def hostLoadProgram (bytes : List Byte) (s : State) : State :=
  if bytes.length ≤ Config.progMaxLen then s.writeBytes Config.progBase bytes
  else s.latch .programTooLarge bytes.length

/-- `key_down(k)` (R182). -/
def hostKeyDown (k : KeyIdx) (s : State) : State := s.setKey k true

/-- `key_up(k)` (R183). -/
def hostKeyUp (k : KeyIdx) (s : State) : State := s.setKey k false

/-- `tick_timers()`: each timer down by one unless it is 0 (R184). -/
def hostTickTimers (s : State) : State := (s.setDT (tickDown s.dt)).setST (tickDown s.st)

/-- What `tick_timers()` returns: `sound_active` after the tick (R184). -/
def tickTimersResult (s : State) : Bool := (hostTickTimers s).soundActive

/-! ### Executions (R10) -/

/-- The operations of R10: the core's `step` and the host's own. -/
inductive Operation where
  | step
  | reset
  | loadFonts
  | loadProgram (bytes : List Byte)
  | keyDown (k : KeyIdx)
  | keyUp (k : KeyIdx)
  | tickTimers
  deriving DecidableEq, Repr

/-- One operation, atomic (R10, R97). The host's act on a halted core as on a running one (R186). -/
def perform (o : Operation) (s : State) : Result :=
  match o with
  | .step => step s
  | .reset => .next (hostReset s)
  | .loadFonts => .next (hostLoadFonts s)
  | .loadProgram bytes => .next (hostLoadProgram bytes s)
  | .keyDown k => .next (hostKeyDown k s)
  | .keyUp k => .next (hostKeyUp k s)
  | .tickTimers => .next (hostTickTimers s)

/-- An execution: a totally ordered sequence of operations, in any order the host likes (R10). -/
def performAll (os : List Operation) (s : State) : Result :=
  match os with
  | [] => .next s
  | o :: rest =>
    match perform o s with
    | .next t => performAll rest t
    | .fault f => .fault f
    | .refused r => .refused r

/-- The boot sequence of R223. -/
def bootSequence (bytes : List Byte) : List Operation := [.reset, .loadFonts, .loadProgram bytes]

/-- One tick of the host's nominal schedule: `STEPS_PER_TICK` steps and a tick (R231). Nothing holds the host to it: an
execution is any sequence (R10), and a claim that assumes this schedule says so (log entry 16). -/
def tickPeriod : List Operation := List.replicate Config.stepsPerTick .step ++ [.tickTimers]

/-- The nominal number of steps a second, `60 * STEPS_PER_TICK` (R231). -/
def nominalRate : Nat := Config.timerHz * Config.stepsPerTick

/-! ### The outputs (R185) -/

/-- What the host reads. -/
structure Outputs where
  /-- `fb[0..2047]` by rows (R28) -/
  framebuffer : Screen
  /-- `redraw` (R29) -/
  redraw : Bool
  /-- `ST != 0` (R26) -/
  soundActive : Bool
  /-- `ERR` as its code (R30, R199) -/
  err : BitVec 4
  /-- `ERRINFO` (R30) -/
  errInfo : Word
  deriving DecidableEq, Repr

/-- The outputs are functions of the state; reading them changes nothing (R185). -/
def State.outputs (s : State) : Outputs :=
  { framebuffer := s.fb, redraw := s.redraw, soundActive := s.soundActive, err := s.errCode, errInfo := s.errInfo }

end Sys2Proof.Machine
end

