-- ==== Sys2Proof/Safety.lean ====
section
/-! DEFINITION. The terms the statements use: the states a run can start and end in (R220, R224, R230), the parts of
the state a frame is said over (R9, R61), and the invariants of the machine (R22, R24, R50, R199). -/

namespace Sys2Proof.Machine

/-! ### States by name -/

/-- The core is running: `ERR = 0` (R30). -/
def State.Running (s : State) : Prop := s.err = none

/-- A power-on state: `pc`, `sp` and `ERR` as R220 gives them, every other field arbitrary, memory in its form. -/
structure State.IsPowerOn (s : State) : Prop where
  pc : s.pc = 0x200#16
  sp : s.sp = 0
  err : s.err = none
  mem : s.mem.wf = true

/-- The launch state of R224 for a program: the rows R224 calls arbitrary are not mentioned. -/
structure State.IsLaunch (bytes : List Byte) (s : State) : Prop where
  pc : s.pc = 0x200#16
  sp : s.sp = 0
  I : s.I = 0#16
  fb : ∀ c, c < 2048 → s.cell c = false
  err : s.err = none
  font : ∀ k (h : k < 80), s.readByte k = Config.font[k]
  program : ∀ k (h : k < bytes.length), s.readByte (0x200 + k) = bytes[k]

/-- "halted normally" (R230, decision D18): `ERR = 0` and the word at `pc` is a jump to `pc`, with `pc <= 0x0FFE`. -/
structure State.HaltedNormally (s : State) : Prop where
  running : s.err = none
  inRange : s.pc.toNat ≤ 0x0FFE
  selfJump : s.fetchWord.toNat = 0x1000 + s.pc.toNat

/-! ### Frames -/

/-- The parts of the state, as R61 and R34 name them. -/
inductive Part where
  | registers
  | pc
  | index
  | stack
  | delayTimer
  | soundTimer
  | keypad
  | screen
  | redraw
  | error
  | memory
  | draws
  deriving DecidableEq, Repr

/-- Two states agree on a part. Memory agrees when every byte reads the same, the screen when every cell does. -/
def SamePart (p : Part) (s t : State) : Prop :=
  match p with
  | .registers => ∀ r, t.getV r = s.getV r
  | .pc => t.pc = s.pc
  | .index => t.I = s.I
  | .stack => t.sp = s.sp ∧ ∀ k : Fin 12, t.slot k = s.slot k
  | .delayTimer => t.dt = s.dt
  | .soundTimer => t.st = s.st
  | .keypad => ∀ k, t.keyIsDown k = s.keyIsDown k
  | .screen => ∀ c, c < 2048 → t.cell c = s.cell c
  | .redraw => t.redraw = s.redraw
  | .error => t.err = s.err ∧ t.errInfo = s.errInfo
  | .memory => ∀ a, t.readByte a = s.readByte a
  | .draws => t.draws = s.draws

/-- From `s` to `t` nothing changes but the parts listed. -/
def OnlyChanges (ps : List Part) (s t : State) : Prop := ∀ p, p ∉ ps → SamePart p s t

/-- From `s` to `t` exactly one register is written, with `b`; nothing else changes but the parts listed. -/
structure WritesRegister (x : RegIdx) (b : Byte) (ps : List Part) (s t : State) : Prop where
  written : t.getV x = b
  others : ∀ r, r ≠ x → t.getV r = s.getV r
  frame : OnlyChanges (.registers :: ps) s t

/-- From `s` to `t` a flag goes to `VF` and a result to `V[x]`; with `x = 15` the result, written last, is what `VF`
holds. Nothing else changes. -/
structure WritesFlagAndResult (x : RegIdx) (flag result : Byte) (s t : State) : Prop where
  result : t.getV x = result
  flag : x ≠ vf → t.getV vf = flag
  others : ∀ r, r ≠ x → r ≠ vf → t.getV r = s.getV r
  frame : OnlyChanges [.registers] s t

/-- "Flags: none. Exceptions: none." of a rule whose destination register, if it has one, is `dest`: `VF` is not written
as a flag, and no fault is raised. -/
def NoFlagNoFault (dest : Option RegIdx) (s t : State) : Prop :=
  (dest ≠ some vf → t.getV vf = s.getV vf) ∧ t.err = s.err ∧ t.errInfo = s.errInfo

/-- What a register reads as once the flag has been written to `VF` (R111): the flag for `VF`, its old value else. -/
def afterFlag (s : State) (flag : Byte) (r : RegIdx) : Byte := if r = vf then flag else s.getV r

/-- From `s` to `t` nothing happens but the entry of a fault (R200): `ERR` and `ERRINFO` are written. -/
structure EntersFault (f : Fault) (info : Nat) (s t : State) : Prop where
  err : t.err = some f
  errInfo : t.errInfo.toNat = info % 65536
  frame : OnlyChanges [.error] s t

/-- The parts an instruction may write (R9, R61), the error latch among them where the instruction can fault (R202). -/
def writableParts (i : Instr) : List Part :=
  match i with
  | .cls => [.screen, .redraw]
  | .ret | .call _ => [.pc, .stack, .error]
  | .sys _ => [.error]
  | .jp _ | .jpV0 _ => [.pc]
  | .seImm _ _ | .sneImm _ _ | .seReg _ _ | .sneReg _ _ => [.pc]
  | .ldImm _ _ | .addImm _ _ | .ldReg _ _ | .orReg _ _ | .andReg _ _ | .xorReg _ _ => [.registers]
  | .addReg _ _ | .subReg _ _ | .shr _ _ | .subnReg _ _ | .shl _ _ | .ldVxDT _ => [.registers]
  | .ldI _ | .addI _ | .ldF _ => [.index]
  | .rnd _ _ => [.registers, .draws]
  | .drw _ _ _ => [.registers, .screen, .redraw, .error]
  | .skp _ | .sknp _ => [.pc, .error]
  | .ldVxK _ => [.registers, .pc]
  | .ldDTVx _ => [.delayTimer]
  | .ldSTVx _ => [.soundTimer]
  | .ldB _ | .storeRegs _ => [.memory, .error]
  | .loadRegs _ => [.registers, .error]

/-- Whether an instruction may write a register (R9, R21): its destination, and `VF` for the six of R21's table. -/
def mayWrite (i : Instr) (r : RegIdx) : Prop :=
  match i with
  | .addReg x _ | .subReg x _ | .shr x _ | .subnReg x _ | .shl x _ => r = x ∨ r = vf
  | .drw _ _ _ => r = vf
  | .ldImm x _ | .addImm x _ | .ldReg x _ | .orReg x _ | .andReg x _ | .xorReg x _ => r = x
  | .rnd x _ | .ldVxDT x | .ldVxK x => r = x
  | .loadRegs x => r ≤ x
  | .cls | .ret | .sys _ | .jp _ | .call _ | .ldI _ | .jpV0 _ => False
  | .seImm _ _ | .sneImm _ _ | .seReg _ _ | .sneReg _ _ | .skp _ | .sknp _ => False
  | .ldDTVx _ | .ldSTVx _ | .addI _ | .ldF _ | .ldB _ | .storeRegs _ => False

/-- The faults an instruction can raise (R202). -/
def raisable (i : Instr) (f : Fault) : Prop :=
  match i with
  | .sys _ => f = .unsupportedOpcode
  | .ret => f = .stackUnderflow
  | .call _ => f = .stackOverflow
  | .skp _ | .sknp _ => f = .keyIndexOutOfRange
  | .drw _ _ _ | .ldB _ | .storeRegs _ | .loadRegs _ => f = .dataAddressOutOfRange
  | .cls | .jp _ | .ldI _ | .jpV0 _ => False
  | .seImm _ _ | .sneImm _ _ | .seReg _ _ | .sneReg _ _ => False
  | .ldImm _ _ | .addImm _ _ | .ldReg _ _ | .orReg _ _ | .andReg _ _ | .xorReg _ _ => False
  | .addReg _ _ | .subReg _ _ | .shr _ _ | .subnReg _ _ | .shl _ _ | .rnd _ _ => False
  | .ldVxDT _ | .ldVxK _ | .ldDTVx _ | .ldSTVx _ | .addI _ | .ldF _ => False

/-- The parts a host operation may write (R180 to R184, R221), the error latch among them where it can fault (R193). -/
def operationParts (o : Operation) : List Part :=
  match o with
  | .step => [.registers, .pc, .index, .stack, .delayTimer, .soundTimer, .screen, .redraw, .error, .memory, .draws]
  | .reset => [.pc, .stack, .index, .screen, .error]
  | .loadFonts => [.memory]
  | .loadProgram _ => [.memory, .error]
  | .keyDown _ | .keyUp _ => [.keypad]
  | .tickTimers => [.delayTimer, .soundTimer]

/-! ### Invariants -/

/-- The invariant of the machine: memory keeps its canonical form within `0x000..0xFFF` (R50), `pc` stays at most
0x10FE, the largest value R22 says any instruction produces, and every valid stack entry is an address some call
pushed, `2` to `0x1000` (R24, R123 with R53). -/
structure MachineInv (s : State) : Prop where
  memory : s.mem.wf = true
  pc : s.pc.toNat ≤ 0x10FE
  stack : ∀ k : Fin 12, k.val < s.sp.val → 2 ≤ (s.slot k).toNat ∧ (s.slot k).toNat ≤ 0x1000

/-- The word of the instruction a step has fetched, read again at `pc - 2`. While a fault raised in DECODE or EXECUTE is
latched `pc` stays advanced and no step writes memory (R200, R96), so it is the `op` of R191 to R198. -/
def State.lastWord (s : State) : Word := (s.jump (s.pc - 2#16)).fetchWord

/-- What `ERRINFO` holds while a fault that a step raised is latched (R191, R192, R194 to R199), and what the state
shows of its cause. `ProgramTooLarge` is raised by `load_program` alone and records a length that no state holds
(R193). -/
def FaultReport (s : State) : Prop :=
  match s.err with
  | none => True
  | some .programTooLarge => True
  | some .unsupportedOpcode => s.errInfo = s.lastWord ∧ ∃ nnn, decodeWord s.lastWord = .ok (.sys nnn)
  | some .unknownOpcode => s.errInfo = s.lastWord ∧ decodeWord s.lastWord = .error (.unknownOpcode s.lastWord)
  | some .fetchOutOfRange => s.errInfo = s.pc ∧ 0x0FFE < s.pc.toNat
  | some .dataAddressOutOfRange =>
    s.errInfo.toNat = max s.I.toNat 0x1000 ∧
    ∃ i, decodeWord s.lastWord = .ok i ∧ raisable i .dataAddressOutOfRange
  | some .stackOverflow => s.errInfo = s.lastWord ∧ s.sp = 12 ∧ ∃ nnn, decodeWord s.lastWord = .ok (.call nnn)
  | some .stackUnderflow => s.errInfo = s.lastWord ∧ s.sp = 0 ∧ decodeWord s.lastWord = .ok .ret
  | some .keyIndexOutOfRange =>
    ∃ x, (decodeWord s.lastWord = .ok (.skp x) ∨ decodeWord s.lastWord = .ok (.sknp x)) ∧
      15 < (s.getV x).toNat ∧ s.errInfo.toNat = (s.getV x).toNat

/-! ### Sprites (R165, R166) -/

/-- The set bits of the sprite of `n` rows at `I`, in the order `DXYN` draws them: (row, column) (R161, R166). -/
def spritePixels (s : State) (n : Nat) : List (Nat × Nat) :=
  (List.range n).flatMap (fun row =>
    ((List.range 8).filter (fun col => spriteBit (s.readByte (dataAddr s row)) col)).map (fun col => (row, col)))

/-- The cells those bits address from the corner `(px, py)`, both coordinates wrapping (R161): the set `S` of R165. -/
def spriteCells (s : State) (px py n : Nat) : List Nat :=
  (spritePixels s n).map (fun p => cellOf ((px + p.2) % 64) ((py + p.1) % 32))

/-- The coordinate a register gives while `DXYN` runs: `VF` is 0 before the first collision and 1 after it, any other
register keeps its value (R161, decision D22). -/
def liveCoord (s : State) (r : RegIdx) (collided : Bool) : Nat :=
  if r = vf then (if collided then 1 else 0) else (s.getV r).toNat

/-- The cells as a function of their index, before and while `DXYN` runs. -/
abbrev Cells := Nat → Bool

/-- `DXYN` as a scan over its set bits that carries the cells and whether a collision has happened: each bit looks at
its target cell, placed by the live coordinates, and flips it (R161, decision D22). -/
def drawScan (s : State) (x y : RegIdx) (pixels : List (Nat × Nat)) (lit : Cells) (hit : Bool) : Cells × Bool :=
  match pixels with
  | [] => (lit, hit)
  | p :: rest =>
    let c := cellOf ((liveCoord s x hit + p.2) % 64) ((liveCoord s y hit + p.1) % 32)
    drawScan s x y rest (fun k => if k = c then !lit k else lit k) (hit || lit c)

end Sys2Proof.Machine
end

