-- ==== Sys2Proof/Certificates/Slice0/Obligations.lean ====
section
/-! DEFINITION. The statements for the provers. Each docstring names the rule of the spec it formalises; where a clause
follows one of the spec's own decisions (`92_eei_decisions.md` D<n>) or a log entry of this model, it says so.

`exec` runs after the prologue of R90, so in the statements about `exec` the `pc` of the first state is the
instruction's address plus 2. A clause that nothing else changes (`OnlyChanges`) is the frame rule R9, which is the
spec's decision D2; a statement with such a clause is listed as derived. -/

open Sys2Proof Sys2Proof.Machine

/-! ### Encoding -/

/-- R72, R74, R75: decoding the encoding of a well-formed instruction gives it back, as a word and as the first two
bytes of any byte sequence. -/
def Obligations.DecodeOfEncodeIsTheInstruction : Prop :=
  ∀ i : Instr, i.wellFormed = true →
    decodeWord (encode i) = .ok i ∧
    ∀ rest, decode ((encode i).extractLsb' 8 8 :: (encode i).extractLsb' 0 8 :: rest) = .ok (i, rest)

/-- R74, R78: a word that decodes is the encoding of what it decodes to, which is well formed; no bit of a word is
dropped, the ignored `y` of `8XY6` and `8XYE` included. -/
def Obligations.EncodeOfDecodeIsTheWord : Prop :=
  ∀ (op : Word) (i : Instr), decodeWord op = .ok i → encode i = op ∧ i.wellFormed = true

/-- R74, R75, R76: the decoder answers the first row of the opcode map whose mask and match the word meets, refuses
exactly the words that meet none, naming the word, and only `0NNN` overlaps another row. -/
def Obligations.DecoderFollowsTheOpcodeMap : Prop :=
  ∀ op : Word,
    (∀ i, decodeWord op = .ok i → opcodeMap.find? (fun r => r.fits op) = some (rowOf i)) ∧
    (∀ e, decodeWord op = .error e →
      e = .unknownOpcode op ∧ opcodeMap.find? (fun r => r.fits op) = none) ∧
    (∀ r ∈ opcodeMap, ∀ q ∈ opcodeMap, r.fits op = true → q.fits op = true →
      r = q ∨ r = rowOf (.sys 0) ∨ q = rowOf (.sys 0))

/-- R75, R76: words written out from the encodings of R75, one of each format, and the source's illegal word. -/
def Obligations.WordsOfEachFormatDecode : Prop :=
  decodeWord 0b0000000011100000#16 = .ok .cls ∧
  decodeWord 0b0000000011101110#16 = .ok .ret ∧
  decodeWord 0b0000000100100011#16 = .ok (.sys 0x123) ∧
  decodeWord 0b0010001101000101#16 = .ok (.call 0x345) ∧
  decodeWord 0b0111101000001010#16 = .ok (.addImm 10 0x0A) ∧
  decodeWord 0b1000000100101110#16 = .ok (.shl 1 2) ∧
  decodeWord 0b1001101010110000#16 = .ok (.sneReg 10 11) ∧
  decodeWord 0b1101000100100101#16 = .ok (.drw 1 2 5) ∧
  decodeWord 0b1110101010100001#16 = .ok (.sknp 10) ∧
  decodeWord 0b1111001101010101#16 = .ok (.storeRegs 3) ∧
  decodeWord 0x5001#16 = .error (.unknownOpcode 0x5001)

/-! ### The step -/

/-- R90, R92, R93 with the fetch of R53: on a running core whose `pc` is at most 0x0FFE, when the big-endian word at
`pc` decodes to `i`, `step` is `exec i` on the state with `pc` advanced by 2 and `redraw` cleared. -/
def Obligations.StepRunsTheDecodedInstruction : Prop :=
  ∀ (s : State) (op : Word) (i : Instr), s.err = none → s.pc.toNat ≤ 0x0FFE →
    op.toNat = (s.readByte s.pc.toNat).toNat * 256 + (s.readByte (s.pc.toNat + 1)).toNat →
    decodeWord op = .ok i →
    step s = exec i { s with pc := s.pc + 2#16, redraw := false }

/-- R192, R95: a word that matches no pattern stops the core with `UnknownOpcode(op)`, `pc` advanced and `redraw`
cleared, and nothing else changes. The fault is taken as a next state (log entry 1). -/
def Obligations.StepOnAnUnknownWordStopsTheCore : Prop :=
  ∀ (s : State) (op : Word) (e : DecodeReject), s.err = none → s.pc.toNat ≤ 0x0FFE →
    op.toNat = (s.readByte s.pc.toNat).toNat * 256 + (s.readByte (s.pc.toNat + 1)).toNat →
    decodeWord op = .error e →
    ∃ t, step s = .next t ∧ t.err = some .unknownOpcode ∧ t.errInfo = op ∧ t.pc = s.pc + 2#16 ∧
      t.redraw = false ∧ OnlyChanges [.pc, .redraw, .error] s t

/-- The spec's decision D4 (R53, R194): a step begun with `pc > 0x0FFE` stops the core with `FetchOutOfRange(pc)`;
`pc`, `redraw` and everything else keep their values. The fault is taken as a next state (log entry 1). -/
def Obligations.StepBeyondMemoryStopsTheCore : Prop :=
  ∀ s : State, s.err = none → 0x0FFE < s.pc.toNat →
    ∃ t, step s = .next t ∧ EntersFault .fetchOutOfRange s.pc.toNat s t

/-- The spec's decision D24 (R96): a step of a halted core changes nothing at all. That it answers a next state and
not a stop is this model's reading (log entry 2). -/
def Obligations.StepOfAHaltedCoreChangesNothing : Prop :=
  ∀ s : State, s.err ≠ none → step s = .next s

/-- The spec's decision D21 (R60, R54): the bytes `FX55` stores are what a fetch from them returns, the register at
the lower address giving the high byte. -/
def Obligations.AFetchSeesTheBytesJustStored : Prop :=
  ∀ (s : State) (x j k : RegIdx), s.mem.wf = true → s.I.toNat + x.val ≤ 0xFFF → k ≤ x → k.val = j.val + 1 →
    ∃ t, exec (.storeRegs x) s = .next t ∧
      (t.jump (BitVec.ofNat 16 (dataAddr s j.val))).fetchWord.toNat = (s.getV j).toNat * 256 + (s.getV k).toNat

/-- R123, R120 (the source's "Stack round-trip"): a call whose target holds `00EE` comes back after two steps to the
instruction after the call, with the stack as deep as before; of the rest only stale stack slots and `redraw` change. -/
def Obligations.ACallThenAReturnResumesAfterTheCall : Prop :=
  ∀ (s : State) (nnn : Imm12), s.err = none → s.pc.toNat ≤ 0x0FFE → nnn.toNat ≤ 0x0FFE → s.sp.val < 12 →
    decodeWord s.fetchWord = .ok (.call nnn) → (s.jump (wordOfImm nnn)).fetchWord = 0x00EE#16 →
    ∃ t u, step s = .next t ∧ t.pc.toNat = nnn.toNat ∧ t.sp.val = s.sp.val + 1 ∧
      step t = .next u ∧ u.pc = s.pc + 2#16 ∧ u.sp = s.sp ∧
      (∀ k : Fin 12, k.val < s.sp.val → u.slot k = s.slot k) ∧
      OnlyChanges [.pc, .stack, .redraw] s u

/-- R122, with the predicate of R230 (decision D18): a core halted normally reproduces the same state at every step,
but for `redraw`, which is cleared, and stays halted normally. -/
def Obligations.ASelfJumpReproducesTheState : Prop :=
  ∀ s : State, s.HaltedNormally →
    ∃ t, step s = .next t ∧ t.redraw = false ∧ OnlyChanges [.redraw] s t ∧ t.HaltedNormally

/-- R164, R229: with no key down, a whole step of `FX0A` leaves every piece of state as it found it, `pc` included,
except `redraw`, which is cleared. -/
def Obligations.AKeyWaitWithNoKeyDownChangesOnlyRedraw : Prop :=
  ∀ (s : State) (x : RegIdx), s.err = none → s.pc.toNat ≤ 0x0FFE → decodeWord s.fetchWord = .ok (.ldVxK x) →
    (∀ k, s.keyIsDown k = false) →
    step s = .next { s with redraw := false }

/-! ### Arithmetic and logic -/

/-- R100: `7XNN` adds modulo 256 to `V[x]`, for every `x`, with no flag and no fault. (That nothing else changes is in
`EveryInstructionKeepsItsFrame`, as for the other statements of one rule below.) -/
def Obligations.AddImmediateWrapsAndSetsNoFlag : Prop :=
  ∀ (x : RegIdx) (nn : Byte) (s : State), ∃ t, exec (.addImm x nn) s = .next t ∧
    (t.getV x).toNat = ((s.getV x).toNat + nn.toNat) % 256 ∧ NoFlagNoFault (some x) s t

/-- R101, R102, R103, with the frame of the spec's decision D2 (R9): `8XY1`, `8XY2`, `8XY3` write the bitwise result
to `V[x]` and nothing else, no flag. -/
def Obligations.LogicWritesOnlyItsResult : Prop :=
  ∀ (x y : RegIdx) (s : State),
    (∃ t, exec (.orReg x y) s = .next t ∧ WritesRegister x (s.getV x ||| s.getV y) [] s t) ∧
    (∃ t, exec (.andReg x y) s = .next t ∧ WritesRegister x (s.getV x &&& s.getV y) [] s t) ∧
    (∃ t, exec (.xorReg x y) s = .next t ∧ WritesRegister x (s.getV x ^^^ s.getV y) [] s t)

/-- R104: `8XY4` puts the carry in `VF` and the sum modulo 256 in `V[x]`. The forms with `x` or `y` = 15 follow the
spec's decision D1: an operand that is `VF` is read after the flag is written, and with `x = 15` the sum replaces it. -/
def Obligations.AddRegistersGivesSumAndCarry : Prop :=
  ∀ (x y : RegIdx) (s : State), ∃ t, exec (.addReg x y) s = .next t ∧
    let flag : Byte := if (s.getV x).toNat + (s.getV y).toNat > 255 then 1 else 0
    WritesFlagAndResult x flag
      (BitVec.ofNat 8 (((afterFlag s flag x).toNat + (afterFlag s flag y).toNat) % 256)) s t

/-- R105: `8XY5` puts "strictly greater" in `VF` and `V[x] - V[y]` modulo 256 in `V[x]`; `x` or `y` = 15 by decision
D1. -/
def Obligations.SubtractGivesDifferenceAndGreater : Prop :=
  ∀ (x y : RegIdx) (s : State), ∃ t, exec (.subReg x y) s = .next t ∧
    let flag : Byte := if (s.getV x).toNat > (s.getV y).toNat then 1 else 0
    WritesFlagAndResult x flag
      (BitVec.ofNat 8 (((afterFlag s flag x).toNat + 256 - (afterFlag s flag y).toNat) % 256)) s t

/-- R107: `8XY7` puts "strictly greater" in `VF` and `V[y] - V[x]` modulo 256 in `V[x]`; `x` or `y` = 15 by decision
D1. -/
def Obligations.ReverseSubtractGivesDifferenceAndGreater : Prop :=
  ∀ (x y : RegIdx) (s : State), ∃ t, exec (.subnReg x y) s = .next t ∧
    let flag : Byte := if (s.getV y).toNat > (s.getV x).toNat then 1 else 0
    WritesFlagAndResult x flag
      (BitVec.ofNat 8 (((afterFlag s flag y).toNat + 256 - (afterFlag s flag x).toNat) % 256)) s t

/-- R106: `8XY6` puts bit 0 of `V[x]` in `VF` and half of `V[x]` in `V[x]`, whatever `y` is; `x = 15` by decision D1,
and always leaves 0. -/
def Obligations.ShiftRightGivesHalfAndLowBit : Prop :=
  ∀ (x y : RegIdx) (s : State), ∃ t, exec (.shr x y) s = .next t ∧
    let flag : Byte := BitVec.ofNat 8 ((s.getV x).toNat % 2)
    WritesFlagAndResult x flag (BitVec.ofNat 8 ((afterFlag s flag x).toNat / 2)) s t ∧
    (x = vf → t.getV vf = 0)

/-- R108: `8XYE` puts bit 7 of `V[x]` in `VF` and twice `V[x]` modulo 256 in `V[x]`, whatever `y` is; `x = 15` by
decision D1. -/
def Obligations.ShiftLeftGivesDoubleAndHighBit : Prop :=
  ∀ (x y : RegIdx) (s : State), ∃ t, exec (.shl x y) s = .next t ∧
    let flag : Byte := BitVec.ofNat 8 ((s.getV x).toNat / 128)
    WritesFlagAndResult x flag (BitVec.ofNat 8 ((afterFlag s flag x).toNat * 2 % 256)) s t

/-- R109, R32 (decision D15): `CXNN` writes the free draw masked with `nn`, so no bit outside `nn` is set, and takes
one draw (`draws` is the model's own field, log entry 9). It holds whatever the draw is. -/
def Obligations.RandomWritesTheMaskedDraw : Prop :=
  ∀ (x : RegIdx) (nn : Byte) (s : State), ∃ t, exec (.rnd x nn) s = .next t ∧
    WritesRegister x (Config.randomByte s.draws &&& nn) [.draws] s t ∧
    t.getV x &&& ~~~nn = 0 ∧ t.draws = s.draws + 1

/-! ### Control flow -/

/-- R120, R24: `00EE` pops `stack[sp - 1]` into `pc` and leaves every slot as it is; the fault on an empty stack is
the spec's decision D5 (R197). The fault is taken as a next state (log entry 1). -/
def Obligations.ReturnPopsTheStack : Prop :=
  ∀ s : State,
    (∀ k : Fin 12, s.sp.val = k.val + 1 → ∃ t, exec .ret s = .next t ∧ t.pc = s.slot k ∧ t.sp.val = k.val ∧
      (∀ j, t.slot j = s.slot j) ∧ OnlyChanges [.pc, .stack] s t) ∧
    (s.sp.val = 0 → ∃ t, exec .ret s = .next t ∧ EntersFault .stackUnderflow 0x00EE s t)

/-- R121, R191: `0NNN` always raises `UnsupportedOpcode` with the whole word; nothing but `ERR` and `ERRINFO` changes.
R121 excludes the words `00E0` and `00EE`: that `exec` gives the two ill-formed terms `sys 0x0E0` and `sys 0x0EE` the
same meaning is the model's choice (log entry 17). That the fault is taken as a next state is log entry 1. -/
def Obligations.MachineCallRaisesUnsupportedOpcode : Prop :=
  ∀ (nnn : Imm12) (s : State), ∃ t, exec (.sys nnn) s = .next t ∧ EntersFault .unsupportedOpcode nnn.toNat s t

/-- R122: `1NNN` puts `nnn` in `pc`, with no flag and no fault. -/
def Obligations.JumpSetsThePc : Prop :=
  ∀ (nnn : Imm12) (s : State), ∃ t, exec (.jp nnn) s = .next t ∧ t.pc.toNat = nnn.toNat ∧ NoFlagNoFault none s t

/-- R123, R24: `2NNN` pushes the advanced `pc` and jumps, up to the twelfth entry; the fault with twelve entries is
the spec's decision D5 (R196). The fault is taken as a next state (log entry 1). -/
def Obligations.CallPushesThePcAndJumps : Prop :=
  ∀ (nnn : Imm12) (s : State),
    (∀ k : Fin 12, s.sp.val = k.val → ∃ t, exec (.call nnn) s = .next t ∧ t.pc.toNat = nnn.toNat ∧
      t.slot k = s.pc ∧ t.sp.val = k.val + 1 ∧ (∀ j, j ≠ k → t.slot j = s.slot j) ∧
      OnlyChanges [.pc, .stack] s t) ∧
    (s.sp.val = 12 → ∃ t, exec (.call nnn) s = .next t ∧ EntersFault .stackOverflow (0x2000 + nnn.toNat) s t)

/-- R124, R125: `3XNN` and `4XNN` add 2 to `pc` when `V[x]` equals, or differs from, `nn`, with no flag and no fault. -/
def Obligations.CompareImmediateSkips : Prop :=
  ∀ (x : RegIdx) (nn : Byte) (s : State),
    (∃ t, exec (.seImm x nn) s = .next t ∧ t.pc = (if s.getV x = nn then s.pc + 2#16 else s.pc) ∧
      NoFlagNoFault none s t) ∧
    (∃ t, exec (.sneImm x nn) s = .next t ∧ t.pc = (if s.getV x = nn then s.pc else s.pc + 2#16) ∧
      NoFlagNoFault none s t)

/-- R126, R127: `5XY0` and `9XY0` add 2 to `pc` when `V[x]` equals, or differs from, `V[y]`, with no flag and no
fault. -/
def Obligations.CompareRegistersSkips : Prop :=
  ∀ (x y : RegIdx) (s : State),
    (∃ t, exec (.seReg x y) s = .next t ∧ t.pc = (if s.getV x = s.getV y then s.pc + 2#16 else s.pc) ∧
      NoFlagNoFault none s t) ∧
    (∃ t, exec (.sneReg x y) s = .next t ∧ t.pc = (if s.getV x = s.getV y then s.pc else s.pc + 2#16) ∧
      NoFlagNoFault none s t)

/-- R128, R146 with the widths of the spec's decision D26: `BNNN` puts the unreduced sum `nnn + V0` in `pc`, and
`FX1E` adds `V[x]` to `I` modulo 65536 with no flag; each writes nothing else. -/
def Obligations.SixteenBitSumsAreNotReducedToTwelveBits : Prop :=
  (∀ (nnn : Imm12) (s : State), ∃ t, exec (.jpV0 nnn) s = .next t ∧
    t.pc.toNat = nnn.toNat + (s.getV 0).toNat ∧ OnlyChanges [.pc] s t) ∧
  (∀ (x : RegIdx) (s : State), ∃ t, exec (.addI x) s = .next t ∧
    t.I.toNat = (s.I.toNat + (s.getV x).toNat) % 65536 ∧ OnlyChanges [.index] s t)

/-! ### Memory and register transfer -/

/-- R140, R141: `6XNN` and `8XY0` write the immediate, or `V[y]`, to `V[x]`, `VF` too when `x` is 15, and otherwise
set no flag; no fault. -/
def Obligations.RegisterLoadsWriteTheirRegister : Prop :=
  ∀ (x y : RegIdx) (nn : Byte) (s : State),
    (∃ t, exec (.ldImm x nn) s = .next t ∧ t.getV x = nn ∧ NoFlagNoFault (some x) s t) ∧
    (∃ t, exec (.ldReg x y) s = .next t ∧ t.getV x = s.getV y ∧ NoFlagNoFault (some x) s t)

/-- R142, R147: `ANNN` puts the zero-extended `nnn` in `I`, `FX29` puts `V[x] * 5` there, of the whole byte; no flag
and no fault. -/
def Obligations.IndexLoadsWriteTheIndex : Prop :=
  (∀ (nnn : Imm12) (s : State), ∃ t, exec (.ldI nnn) s = .next t ∧ t.I.toNat = nnn.toNat ∧
    NoFlagNoFault none s t) ∧
  (∀ (x : RegIdx) (s : State), ∃ t, exec (.ldF x) s = .next t ∧ t.I.toNat = (s.getV x).toNat * 5 ∧
    NoFlagNoFault none s t)

/-- R143, R144, R145: `FX07` reads `DT` into `V[x]` and does not change it, `FX15` and `FX18` write `DT` and `ST` from
`V[x]`, `sound_active` following at once; no flag and no fault. -/
def Obligations.TimerTransfersMoveOneByte : Prop :=
  ∀ (x : RegIdx) (s : State),
    (∃ t, exec (.ldVxDT x) s = .next t ∧ t.getV x = s.dt ∧ t.dt = s.dt ∧ NoFlagNoFault (some x) s t) ∧
    (∃ t, exec (.ldDTVx x) s = .next t ∧ t.dt = s.getV x ∧ NoFlagNoFault none s t) ∧
    (∃ t, exec (.ldSTVx x) s = .next t ∧ t.st = s.getV x ∧ t.soundActive = decide (s.getV x ≠ 0) ∧
      NoFlagNoFault none s t)

/-- R148, R54, with the bound of the spec's decision D3 and the frame of its decision D2: within memory, `FX33` stores
the three decimal digits of `V[x]` at `I`, `I+1`, `I+2`, the hundreds lowest, and changes no other byte and no other
part of the state. -/
def Obligations.DecimalStoreWritesThreeDigits : Prop :=
  ∀ (x : RegIdx) (s : State), s.mem.wf = true → s.I.toNat + 2 ≤ 0xFFF →
    ∃ t, exec (.ldB x) s = .next t ∧
      (t.readByte (dataAddr s 0)).toNat = (s.getV x).toNat / 100 ∧
      (t.readByte (dataAddr s 1)).toNat = (s.getV x).toNat / 10 % 10 ∧
      (t.readByte (dataAddr s 2)).toNat = (s.getV x).toNat % 10 ∧
      (∀ a, a < dataAddr s 0 ∨ dataAddr s 2 < a → t.readByte a = s.readByte a) ∧
      OnlyChanges [.memory] s t

/-- R149, with the bound of the spec's decision D3 and the frame of its decision D2 (R9): within memory, `FX55` stores
`V0..Vx` at `I .. I+x` and changes no other byte and no other part of the state; `I` keeps its value. -/
def Obligations.RegisterStoreWritesTheRange : Prop :=
  ∀ (x : RegIdx) (s : State), s.mem.wf = true → s.I.toNat + x.val ≤ 0xFFF →
    ∃ t, exec (.storeRegs x) s = .next t ∧
      (∀ k : RegIdx, k ≤ x → t.readByte (dataAddr s k.val) = s.getV k) ∧
      (∀ a, a < dataAddr s 0 ∨ dataAddr s x.val < a → t.readByte a = s.readByte a) ∧
      OnlyChanges [.memory] s t

/-- R150, with the bound of the spec's decision D3 and the frame of its decision D2 (R9): within memory, `FX65` loads
`V0..Vx` from `I .. I+x`; registers above `Vx`, memory, `I` and every other part keep their values. -/
def Obligations.RegisterLoadReadsTheRange : Prop :=
  ∀ (x : RegIdx) (s : State), s.I.toNat + x.val ≤ 0xFFF →
    ∃ t, exec (.loadRegs x) s = .next t ∧
      (∀ k : RegIdx, k ≤ x → t.getV k = s.readByte (dataAddr s k.val)) ∧
      (∀ k : RegIdx, x < k → t.getV k = s.getV k) ∧
      OnlyChanges [.registers] s t

/-- The spec's decision D3 (R52, R195): when the bytes `DXYN` (with `n > 0`), `FX33`, `FX55` or `FX65` reach from `I`
are not all within memory, the instruction raises `DataAddressOutOfRange(max(I, 0x1000))` and writes nothing else. The
fault is taken as a next state (log entry 1). -/
def Obligations.AnAddressBeyondMemoryFaultsBeforeAnyWrite : Prop :=
  ∀ s : State,
    (∀ x y (n : Nibble), 0 < n.toNat → 0xFFF < s.I.toNat + n.toNat - 1 → ∃ t, exec (.drw x y n) s = .next t ∧
      EntersFault .dataAddressOutOfRange (max s.I.toNat 0x1000) s t) ∧
    (∀ x, 0xFFF < s.I.toNat + 2 → ∃ t, exec (.ldB x) s = .next t ∧
      EntersFault .dataAddressOutOfRange (max s.I.toNat 0x1000) s t) ∧
    (∀ x : RegIdx, 0xFFF < s.I.toNat + x.val → ∃ t, exec (.storeRegs x) s = .next t ∧
      EntersFault .dataAddressOutOfRange (max s.I.toNat 0x1000) s t) ∧
    (∀ x : RegIdx, 0xFFF < s.I.toNat + x.val → ∃ t, exec (.loadRegs x) s = .next t ∧
      EntersFault .dataAddressOutOfRange (max s.I.toNat 0x1000) s t)

/-! ### Graphics and input -/

/-- R160 with the open parameter of decision D11: `00E0` clears all 2048 cells; `redraw` becomes 1 under
`CLS_SETS_REDRAW` and is left alone without it; nothing else changes. -/
def Obligations.ClearScreenClearsEveryCell : Prop :=
  ∀ s : State, ∃ t, exec .cls s = .next t ∧ (∀ c, c < 2048 → t.cell c = false) ∧
    (Config.clsSetsRedraw = true → t.redraw = true) ∧ (Config.clsSetsRedraw = false → t.redraw = s.redraw) ∧
    OnlyChanges [.screen, .redraw] s t

/-- R161, for every `x` and `y`: within memory (or with `n = 0`), `DXYN` leaves the cells and the collision flag that
the scan over the sprite's set bits gives, sets `redraw`, and writes nothing else. The live coordinates of `x` or `y`
= 15 follow the spec's decision D22. -/
def Obligations.DrawFollowsTheScanOfItsSetBits : Prop :=
  ∀ (x y : RegIdx) (n : Nibble) (s : State), (0 < n.toNat → s.I.toNat + n.toNat - 1 ≤ 0xFFF) →
    ∃ t, exec (.drw x y n) s = .next t ∧
      (∀ c, c < 2048 → t.cell c = (drawScan s x y (spritePixels s n.toNat) s.cell false).1 c) ∧
      t.getV vf = (if (drawScan s x y (spritePixels s n.toNat) s.cell false).2 then 1 else 0) ∧
      t.redraw = true ∧ (∀ r, r ≠ vf → t.getV r = s.getV r) ∧ OnlyChanges [.registers, .screen, .redraw] s t

/-- R165 (a), (b), (d), (e), derived by the spec from R161: with `x` and `y` not 15, `DXYN` flips exactly the cells
its set bits address, and `VF` is 1 exactly when one of them was 1. The forms with `x` or `y` = 15 are in
`DrawFollowsTheScanOfItsSetBits`. -/
def Obligations.DrawFlipsExactlyTheSpriteCells : Prop :=
  ∀ (x y : RegIdx) (n : Nibble) (s : State), x ≠ vf → y ≠ vf →
    (0 < n.toNat → s.I.toNat + n.toNat - 1 ≤ 0xFFF) →
    ∃ t, exec (.drw x y n) s = .next t ∧
      (∀ c, c < 2048 → t.cell c =
        xor (s.cell c) (decide (c ∈ spriteCells s (s.getV x).toNat (s.getV y).toNat n.toNat))) ∧
      (t.getV vf = if ∃ c ∈ spriteCells s (s.getV x).toNat (s.getV y).toNat n.toNat, s.cell c = true then 1 else 0)

/-- R165 (c), derived by the spec from R161 (the source's "Draw idempotence"): the same draw again restores every
cell, and gives `VF = 1` exactly when the first draw left a cell of the sprite at 1; over a clear region the first
draw gives `VF = 0`. -/
def Obligations.DrawingTwiceRestoresTheScreen : Prop :=
  ∀ (x y : RegIdx) (n : Nibble) (s : State), x ≠ vf → y ≠ vf →
    (0 < n.toNat → s.I.toNat + n.toNat - 1 ≤ 0xFFF) →
    ∃ t u, exec (.drw x y n) s = .next t ∧ exec (.drw x y n) t = .next u ∧
      (∀ c, c < 2048 → u.cell c = s.cell c) ∧
      (u.getV vf = if ∃ c ∈ spriteCells s (s.getV x).toNat (s.getV y).toNat n.toNat, t.cell c = true then 1 else 0) ∧
      ((∀ c ∈ spriteCells s (s.getV x).toNat (s.getV y).toNat n.toNat, s.cell c = false) → t.getV vf = 0 ∧
        (spriteCells s (s.getV x).toNat (s.getV y).toNat n.toNat ≠ [] → u.getV vf = 1))

/-- R162, R163, R129: when `V[x]` is a key number, `EX9E` and `EXA1` add 2 to `pc` when that key is down, or up;
nothing else changes. -/
def Obligations.KeyTestsSkipOnTheKeyState : Prop :=
  ∀ (x : RegIdx) (k : KeyIdx) (s : State), (s.getV x).toNat = k.val →
    (∃ t, exec (.skp x) s = .next t ∧ t.pc = (if s.keyIsDown k then s.pc + 2#16 else s.pc) ∧
      OnlyChanges [.pc] s t) ∧
    (∃ t, exec (.sknp x) s = .next t ∧ t.pc = (if s.keyIsDown k then s.pc else s.pc + 2#16) ∧
      OnlyChanges [.pc] s t)

/-- The spec's decision D6 (R198): `EX9E` and `EXA1` with `V[x] > 15` raise `KeyIndexOutOfRange(V[x])` and write
nothing else. The fault is taken as a next state (log entry 1). -/
def Obligations.AKeyTestBeyondTheKeypadFaults : Prop :=
  ∀ (x : RegIdx) (s : State), 15 < (s.getV x).toNat →
    (∃ t, exec (.skp x) s = .next t ∧ EntersFault .keyIndexOutOfRange (s.getV x).toNat s t) ∧
    (∃ t, exec (.sknp x) s = .next t ∧ EntersFault .keyIndexOutOfRange (s.getV x).toNat s t)

/-- R164: `FX0A` writes the highest key that is down to `V[x]` and leaves `pc` advanced, with no flag and no fault;
with no key down it takes 2 off `pc` and leaves every other piece of state as it found it. -/
def Obligations.KeyWaitTakesTheHighestKeyDown : Prop :=
  ∀ (x : RegIdx) (s : State),
    (∀ k : KeyIdx, s.keyIsDown k = true → (∀ j, k < j → s.keyIsDown j = false) →
      ∃ t, exec (.ldVxK x) s = .next t ∧ (t.getV x).toNat = k.val ∧ t.pc = s.pc ∧ NoFlagNoFault (some x) s t) ∧
    ((∀ k, s.keyIsDown k = false) →
      ∃ t, exec (.ldVxK x) s = .next t ∧ t.pc = s.pc - 2#16 ∧ OnlyChanges [.pc] s t)

/-! ### The whole machine -/

/-- The spec's decision D2 (R9, R61): every instruction changes only the parts the table of R61 lets it reach, and of
the registers only its destination, with `VF` for the six of R21. -/
def Obligations.EveryInstructionKeepsItsFrame : Prop :=
  ∀ (i : Instr) (s t : State), exec i s = .next t →
    OnlyChanges (writableParts i) s t ∧ ∀ r, ¬ mayWrite i r → t.getV r = s.getV r

/-- R94: there is no instruction that does not complete in one step: every instruction, and every step, answers a next
state (a fault is taken as one, log entries 1 and 2). -/
def Obligations.EveryInstructionAnswersANextState : Prop :=
  (∀ (i : Instr) (s : State), ∃ t, exec i s = .next t) ∧ ∀ s : State, ∃ t, step s = .next t

/-- The spec's decision D23 (R200, R202): an instruction that raises a fault has written nothing but `ERR` and
`ERRINFO`, and raises only the fault R202 gives it. The fault is taken as a next state (log entry 1). -/
def Obligations.AFaultingInstructionWritesNothingElse : Prop :=
  ∀ (i : Instr) (s t : State), s.err = none → exec i s = .next t →
    t.err = none ∨ ∃ f, raisable i f ∧ t.err = some f ∧ OnlyChanges [.error] s t

/-- R21: the six flag-writing instructions leave 0 or 1 in `VF`, when their result does not replace it. -/
def Obligations.AFlagIsZeroOrOne : Prop :=
  ∀ (x y : RegIdx) (n : Nibble) (s t : State), s.err = none → t.err = none →
    ((x ≠ vf ∧ (exec (.addReg x y) s = .next t ∨ exec (.subReg x y) s = .next t ∨ exec (.shr x y) s = .next t ∨
        exec (.subnReg x y) s = .next t ∨ exec (.shl x y) s = .next t)) ∨
      exec (.drw x y n) s = .next t) →
    t.getV vf = 0 ∨ t.getV vf = 1

/-- R29, R93: after a step that fetched, `redraw` is 1 exactly when the step completed a `DXYN`, or a `00E0` under
`CLS_SETS_REDRAW` (decision D11). -/
def Obligations.RedrawSaysADrawCompleted : Prop :=
  ∀ s t : State, s.err = none → s.pc.toNat ≤ 0x0FFE → step s = .next t →
    (t.redraw = true ↔
      (∃ x y n, decodeWord s.fetchWord = .ok (.drw x y n) ∧ t.err = none) ∨
      (decodeWord s.fetchWord = .ok .cls ∧ Config.clsSetsRedraw = true))

/-- R191 to R199 (decisions D7, D23): while a fault that a step raised is latched, `ERRINFO` is exactly what its rule
records: the faulting word, `pc`, `max(I, 0x1000)` or the `V[x]` of the key test; every step keeps it so. No step
raises `ProgramTooLarge` (R193), and a step that finds it latched changes nothing; what `load_program` records then is
in `LoadProgramCopiesOrRejects`. That a fault is a next state and that a halted core answers one are log entries 1 and
2. -/
def Obligations.EveryStepKeepsTheFaultReport : Prop :=
  ∀ s t : State, FaultReport s → step s = .next t →
    FaultReport t ∧ (t.err = some .programTooLarge → t = s)

/-- R30, R203, R186 (decisions D7, D24): no operation but `reset()` clears the error latch, and `reset()` does. -/
def Obligations.OnlyResetClearsTheErrorLatch : Prop :=
  ∀ (o : Operation) (s t : State), s.err ≠ none → perform o s = .next t → (t.err = none ↔ o = .reset)

/-- R22, R24, R50: every step keeps the invariant: memory in its canonical form (the model's choice, log entry 8)
within `0x000..0xFFF`, `pc` at most 0x10FE, and every valid stack entry an address from 2 to 0x1000. -/
def Obligations.EveryStepKeepsTheInvariant : Prop :=
  ∀ s t : State, MachineInv s → step s = .next t → MachineInv t

/-- R22, R24, R50: every execution, any interleaving of `step()` and the host's operations (R10), keeps the invariant,
from any state that meets it. The canonical form of memory is the model's choice (log entry 8), and so is having the
host's operations as transitions beside `step` (log entry 13). -/
def Obligations.EveryExecutionKeepsTheInvariant : Prop :=
  ∀ (os : List Operation) (s t : State), MachineInv s → performAll os s = .next t → MachineInv t

/-- The state after reset meets both invariants that steps keep, `MachineInv` and `FaultReport`, and has no fault
latched (R222; the error latch is the spec's decision D7). That its memory is empty, and the canonical form itself,
are the model's choice (log entry 8). -/
def Obligations.ResetMeetsTheInvariant : Prop :=
  MachineInv State.reset ∧ FaultReport State.reset ∧ State.reset.err = none

/-! ### Reset and the host's operations -/

/-- R222: the values the spec gives for the state after reset (the model's own choices for the others are log entries
3 to 9, and nothing here rests on them). -/
def Obligations.ResetStateHasTheSpecsValues : Prop :=
  State.reset.pc = 0x200#16 ∧ State.reset.sp = 0 ∧ State.reset.I = 0#16 ∧ State.reset.err = none ∧
  ∀ c, c < 2048 → State.reset.cell c = false

/-- R221: `reset()` sets `pc`, `sp`, `I`, the screen and `ERR`, from any state; that it leaves everything else, and
clears `ERR`, are the spec's decisions D9 and D7. -/
def Obligations.HostResetWritesFiveThings : Prop :=
  ∀ s : State, ∃ t, perform .reset s = .next t ∧ t.pc = 0x200#16 ∧ t.sp = 0 ∧ t.I = 0#16 ∧ t.err = none ∧
    (∀ c, c < 2048 → t.cell c = false) ∧ t.errInfo = s.errInfo ∧ (∀ k : Fin 12, t.slot k = s.slot k) ∧
    OnlyChanges [.pc, .stack, .index, .screen, .error] s t

/-- R181: `load_program` copies at most 3584 bytes to memory from 0x200 and changes no other byte; a longer program is
rejected before any write, and latched as `ProgramTooLarge(len)` by the spec's decision D8 (R193), as a next state
(log entry 1). That the operation touches no other part of the state is this model's reading (log entry 13). -/
def Obligations.LoadProgramCopiesOrRejects : Prop :=
  ∀ (bytes : List Byte) (s : State), s.mem.wf = true →
    (bytes.length ≤ 3584 → ∃ t, perform (.loadProgram bytes) s = .next t ∧
      (∀ k (h : k < bytes.length), t.readByte (0x200 + k) = bytes[k]) ∧
      (∀ a, a < 0x200 ∨ 0x200 + bytes.length ≤ a → t.readByte a = s.readByte a) ∧ OnlyChanges [.memory] s t) ∧
    (3584 < bytes.length → ∃ t, perform (.loadProgram bytes) s = .next t ∧
      EntersFault .programTooLarge bytes.length s t)

/-- R180: `load_fonts` copies the 80 font bytes, whatever they are, to addresses 0 to 79 and does not touch a byte
from 0x050 upward. -/
def Obligations.LoadFontsCopiesEightyBytes : Prop :=
  ∀ s : State, s.mem.wf = true → ∃ t, perform .loadFonts s = .next t ∧
    (∀ k (h : k < 80), t.readByte k = Config.font[k]) ∧ (∀ a, 80 ≤ a → t.readByte a = s.readByte a)

/-- R182, R183 (decision D14): `key_down(k)` and `key_up(k)` set and clear latch `k` and no other. That they touch
nothing else is this model's reading (log entry 13). -/
def Obligations.KeyEventsWriteOneLatch : Prop :=
  ∀ (k : KeyIdx) (s : State),
    (∃ t, perform (.keyDown k) s = .next t ∧ t.keyIsDown k = true ∧
      (∀ j, j ≠ k → t.keyIsDown j = s.keyIsDown j) ∧ OnlyChanges [.keypad] s t) ∧
    (∃ t, perform (.keyUp k) s = .next t ∧ t.keyIsDown k = false ∧
      (∀ j, j ≠ k → t.keyIsDown j = s.keyIsDown j) ∧ OnlyChanges [.keypad] s t)

/-- R184: `tick_timers` takes 1 off each timer that is not 0 and returns whether `ST` is still not 0; after `n` ticks
a timer that held `v` holds `v - n`, or 0 if `n` is more. -/
def Obligations.TicksCountDownToZero : Prop :=
  ∀ s : State,
    (∃ t, perform .tickTimers s = .next t ∧ t.dt.toNat = s.dt.toNat - 1 ∧ t.st.toNat = s.st.toNat - 1 ∧
      tickTimersResult s = decide (t.st ≠ 0#8)) ∧
    (∀ n, ∃ t, performAll (List.replicate n .tickTimers) s = .next t ∧ t.dt.toNat = s.dt.toNat - n ∧
      t.st.toNat = s.st.toNat - n)

/-- A host operation changes only the parts the rules R180 to R184 and R221 name for it, a key changes only in a key
event, and `step()` changes no key. That what a rule does not name keeps its value is the spec's decision D9 for
`reset()` and decision D2 for the instructions, and this model's reading of the other rules (log entry 13). -/
def Obligations.EveryHostOperationKeepsItsFrame : Prop :=
  ∀ (o : Operation) (s t : State), perform o s = .next t → OnlyChanges (operationParts o) s t

/-- R223, R224, derived by the spec from R220, R221, R180, R181: from any state with memory in its form (log entry 8;
a power-on state of R220 among them), the boot sequence reaches a launch state of R224, and the first word fetched is
the program's first two bytes. The bytes outside the font and the program, and the registers, timers, keys and
`redraw`, are kept: for `reset()` that is the spec's decision D9 (R221), for `load_fonts` and `load_program` this
model's reading (log entry 13); R224 itself calls them arbitrary at launch. -/
def Obligations.TheBootSequenceReachesALaunchState : Prop :=
  ∀ (bytes : List Byte) (s : State), s.mem.wf = true → bytes.length ≤ 3584 →
    ∃ t, performAll (bootSequence bytes) s = .next t ∧ t.IsLaunch bytes ∧
      (∀ b0 b1 rest, bytes = b0 :: b1 :: rest → t.fetchWord.toNat = b0.toNat * 256 + b1.toNat) ∧
      OnlyChanges [.pc, .stack, .index, .screen, .error, .memory] s t ∧
      (∀ a, 80 ≤ a → a < 0x200 ∨ 0x200 + bytes.length ≤ a → t.readByte a = s.readByte a)

/-- R185, R199 (decision D7): the error code the host reads is 0 exactly while the core runs, and at most 8; two
faults never have the same code; the other outputs are the fields R185 names. -/
def Obligations.TheOutputsShowTheState : Prop :=
  (∀ s : State, (s.outputs.err = 0 ↔ s.err = none) ∧ s.outputs.err.toNat ≤ 8 ∧ s.outputs.errInfo = s.errInfo ∧
    s.outputs.framebuffer = s.fb ∧ s.outputs.redraw = s.redraw ∧ (s.outputs.soundActive = true ↔ s.st ≠ 0)) ∧
  ∀ f g : Fault, faultCode f = faultCode g → f = g
end

