-- ==== Sys2Proof/Laws/Decode.lean ====
section
/-! SUPPORT. The fields of a packed word are what was packed, and a word packed from its own fields is the word
(R71, R72): the lemmas from which decode and encode are compared. -/

namespace Sys2Proof

@[simp] theorem regOf_nibOf (x : RegIdx) : regOf (nibOf x) = x := rfl
@[simp] theorem nibOf_regOf (b : Nibble) : nibOf (regOf b) = b := rfl

@[simp] theorem fieldTop_packNNN (t : Nibble) (nnn : Imm12) : fieldTop (packNNN t nnn) = t := by
  unfold fieldTop packNNN
  rw [BitVec.extractLsb'_append_eq_of_le (by decide)]
  simp

@[simp] theorem fieldNNN_packNNN (t : Nibble) (nnn : Imm12) : fieldNNN (packNNN t nnn) = nnn := by
  unfold fieldNNN packNNN
  exact BitVec.extractLsb'_append_eq_right

@[simp] theorem fieldTop_packXNN (t : Nibble) (x : RegIdx) (nn : Byte) : fieldTop (packXNN t x nn) = t := by
  unfold fieldTop packXNN
  rw [BitVec.extractLsb'_append_eq_of_le (by decide), BitVec.extractLsb'_append_eq_of_le (by decide)]
  simp

@[simp] theorem fieldX_packXNN (t : Nibble) (x : RegIdx) (nn : Byte) : fieldX (packXNN t x nn) = nibOf x := by
  unfold fieldX packXNN
  rw [BitVec.extractLsb'_append_eq_of_le (by decide)]
  exact BitVec.extractLsb'_append_eq_right

@[simp] theorem fieldNN_packXNN (t : Nibble) (x : RegIdx) (nn : Byte) : fieldNN (packXNN t x nn) = nn := by
  unfold fieldNN packXNN
  exact BitVec.extractLsb'_append_eq_right

@[simp] theorem fieldTop_packXYN (t : Nibble) (x y : RegIdx) (n : Nibble) : fieldTop (packXYN t x y n) = t := by
  unfold fieldTop packXYN
  rw [BitVec.extractLsb'_append_eq_of_le (by decide), BitVec.extractLsb'_append_eq_of_le (by decide),
    BitVec.extractLsb'_append_eq_of_le (by decide)]
  simp

@[simp] theorem fieldX_packXYN (t : Nibble) (x y : RegIdx) (n : Nibble) : fieldX (packXYN t x y n) = nibOf x := by
  unfold fieldX packXYN
  rw [BitVec.extractLsb'_append_eq_of_le (by decide), BitVec.extractLsb'_append_eq_of_le (by decide)]
  exact BitVec.extractLsb'_append_eq_right

@[simp] theorem fieldY_packXYN (t : Nibble) (x y : RegIdx) (n : Nibble) : fieldY (packXYN t x y n) = nibOf y := by
  unfold fieldY packXYN
  rw [BitVec.extractLsb'_append_eq_of_le (by decide)]
  exact BitVec.extractLsb'_append_eq_right

@[simp] theorem fieldN_packXYN (t : Nibble) (x y : RegIdx) (n : Nibble) : fieldN (packXYN t x y n) = n := by
  unfold fieldN packXYN
  exact BitVec.extractLsb'_append_eq_right

/-- A word packed from its own fields, in each format (R72). -/
theorem packNNN_fields (op : Word) : packNNN (fieldTop op) (fieldNNN op) = op := by
  apply BitVec.eq_of_toNat_eq
  simp only [packNNN, fieldTop, fieldNNN, BitVec.toNat_append, BitVec.extractLsb'_toNat]
  rw [← Nat.shiftLeft_add_eq_or_of_lt (by omega)]
  have := op.isLt
  simp only [Nat.shiftLeft_eq, Nat.shiftRight_eq_div_pow]
  omega

theorem packXNN_fields (op : Word) : packXNN (fieldTop op) (regOf (fieldX op)) (fieldNN op) = op := by
  apply BitVec.eq_of_toNat_eq
  simp only [packXNN, nibOf_regOf, fieldTop, fieldX, fieldNN, BitVec.toNat_append, BitVec.extractLsb'_toNat]
  rw [← Nat.shiftLeft_add_eq_or_of_lt (by omega), ← Nat.shiftLeft_add_eq_or_of_lt (by omega)]
  have := op.isLt
  simp only [Nat.shiftLeft_eq, Nat.shiftRight_eq_div_pow]
  omega

theorem packXYN_fields (op : Word) :
    packXYN (fieldTop op) (regOf (fieldX op)) (regOf (fieldY op)) (fieldN op) = op := by
  apply BitVec.eq_of_toNat_eq
  simp only [packXYN, nibOf_regOf, fieldTop, fieldX, fieldY, fieldN, BitVec.toNat_append, BitVec.extractLsb'_toNat]
  rw [← Nat.shiftLeft_add_eq_or_of_lt (by omega), ← Nat.shiftLeft_add_eq_or_of_lt (by omega),
    ← Nat.shiftLeft_add_eq_or_of_lt (by omega)]
  have := op.isLt
  simp only [Nat.shiftLeft_eq, Nat.shiftRight_eq_div_pow]
  omega

/-- The numbers of packed words (R5). -/
theorem toNat_packNNN (t : Nibble) (nnn : Imm12) : (packNNN t nnn).toNat = t.toNat * 4096 + nnn.toNat := by
  simp only [packNNN, BitVec.toNat_append]
  rw [← Nat.shiftLeft_add_eq_or_of_lt nnn.isLt]
  simp only [Nat.shiftLeft_eq]

/-- A big-endian word as a number: `hi * 256 + lo` (R53). -/
theorem toNat_wordOfBytes (hi lo : Byte) : (wordOfBytes hi lo).toNat = hi.toNat * 256 + lo.toNat := by
  simp only [wordOfBytes, BitVec.toNat_append]
  rw [← Nat.shiftLeft_add_eq_or_of_lt lo.isLt]
  simp only [Nat.shiftLeft_eq]

/-- A word split into the two bytes memory holds, and put together again (R53, R70). -/
theorem wordOfBytes_split (op : Word) : wordOfBytes (op.extractLsb' 8 8) (op.extractLsb' 0 8) = op := by
  apply BitVec.eq_of_toNat_eq
  rw [toNat_wordOfBytes]
  simp only [BitVec.extractLsb'_toNat, Nat.shiftRight_eq_div_pow]
  have := op.isLt
  omega

/-- Decoding two bytes is decoding their word. -/
theorem decode_two (hi lo : Byte) (rest : List Byte) {i : Instr} (h : decodeWord (wordOfBytes hi lo) = .ok i) :
    decode (hi :: lo :: rest) = .ok (i, rest) := by
  simp [decode, h]

end Sys2Proof
end

