-- ==== Sys2Proof/Laws/Memory.lean ====
section
/-! SUPPORT. The laws of memory (R50 to R56): what a read returns after a write, and that every operation keeps the
canonical form, in which equal memories are equal data. -/

namespace Sys2Proof.Machine

@[simp] theorem Memory.read_nil (a : Nat) : Memory.read [] a = Memory.unlisted := rfl

theorem Memory.read_cons (k a : Nat) (b : Byte) (m : Memory) :
    Memory.read ((k, b) :: m) a = if a = k then b else Memory.read m a := rfl

/-- The canonical form, one entry at a time. -/
theorem Memory.wfFrom_cons (lo k : Nat) (b : Byte) (m : Memory) :
    Memory.wfFrom lo ((k, b) :: m) = true ↔
      lo ≤ k ∧ k < 4096 ∧ b ≠ Memory.unlisted ∧ Memory.wfFrom (k + 1) m = true := by
  simp [Memory.wfFrom, and_assoc]

theorem Memory.wfFrom_mono {lo hi : Nat} {m : Memory} (h : lo ≤ hi) (hm : Memory.wfFrom hi m = true) :
    Memory.wfFrom lo m = true := by
  cases m with
  | nil => rfl
  | cons e m =>
    obtain ⟨k, b⟩ := e
    rw [Memory.wfFrom_cons] at hm ⊢
    exact ⟨by omega, hm.2⟩

/-- Below the first address a canonical memory may list, nothing is listed. -/
theorem Memory.read_below {lo a : Nat} {m : Memory} (hm : Memory.wfFrom lo m = true) (h : a < lo) :
    m.read a = Memory.unlisted := by
  induction m generalizing lo with
  | nil => rfl
  | cons e m ih =>
    obtain ⟨k, b⟩ := e
    rw [Memory.wfFrom_cons] at hm
    rw [Memory.read_cons, if_neg (by omega)]
    exact ih hm.2.2.2 (by omega)

/-- A canonical memory lists nothing outside the address space (R50). -/
theorem Memory.read_beyond {lo a : Nat} {m : Memory} (hm : Memory.wfFrom lo m = true) (h : 4096 ≤ a) :
    m.read a = Memory.unlisted := by
  induction m generalizing lo with
  | nil => rfl
  | cons e m ih =>
    obtain ⟨k, b⟩ := e
    rw [Memory.wfFrom_cons] at hm
    rw [Memory.read_cons, if_neg (by omega)]
    exact ih hm.2.2.2

/-- A write leaves every other address alone. -/
theorem Memory.read_write_other (m : Memory) {a q : Nat} (b : Byte) (h : q ≠ a) :
    (m.write a b).read q = m.read q := by
  induction m with
  | nil => unfold Memory.write; split <;> simp [Memory.read, h]
  | cons e m ih =>
    obtain ⟨k, c⟩ := e
    unfold Memory.write
    split
    · split <;> simp [Memory.read, h]
    · split
      · subst_vars
        split <;> simp [Memory.read, h]
      · rw [Memory.read_cons, Memory.read_cons, ih]

/-- A read after a write to the same address gives the byte written. -/
theorem Memory.read_write_same {lo : Nat} {m : Memory} (a : Nat) (b : Byte) (hm : Memory.wfFrom lo m = true) :
    (m.write a b).read a = b := by
  induction m generalizing lo with
  | nil => unfold Memory.write; split <;> simp_all [Memory.read]
  | cons e m ih =>
    obtain ⟨k, c⟩ := e
    rw [Memory.wfFrom_cons] at hm
    obtain ⟨-, -, -, hm⟩ := hm
    unfold Memory.write
    split
    · split
      · subst_vars
        rw [Memory.read_cons, if_neg (by omega)]
        exact Memory.read_below hm (by omega)
      · simp [Memory.read_cons]
    · split
      · subst_vars
        split
        · subst_vars
          exact Memory.read_below hm (by omega)
        · simp [Memory.read_cons]
      · rw [Memory.read_cons, if_neg (by omega)]
        exact ih hm

/-- Every address after a write, at once. -/
theorem Memory.read_write {lo : Nat} {m : Memory} (a q : Nat) (b : Byte) (hm : Memory.wfFrom lo m = true) :
    (m.write a b).read q = if q = a then b else m.read q := by
  split
  · subst_vars
    exact Memory.read_write_same _ _ hm
  · exact Memory.read_write_other _ _ ‹_›

/-- A write within the address space keeps the canonical form. -/
theorem Memory.wfFrom_write {lo a : Nat} {m : Memory} (b : Byte) (hm : Memory.wfFrom lo m = true) (hlo : lo ≤ a)
    (ha : a < 4096) : Memory.wfFrom lo (m.write a b) = true := by
  induction m generalizing lo with
  | nil =>
    unfold Memory.write
    split
    · rfl
    · rw [Memory.wfFrom_cons]
      exact ⟨hlo, ha, ‹_›, rfl⟩
  | cons e m ih =>
    obtain ⟨k, c⟩ := e
    have hc := (Memory.wfFrom_cons _ _ _ _).1 hm
    unfold Memory.write
    split
    · split
      · exact hm
      · rw [Memory.wfFrom_cons, Memory.wfFrom_cons]
        exact ⟨hlo, ha, ‹_›, by omega, hc.2⟩
    · split
      · split
        · exact Memory.wfFrom_mono (by omega) hc.2.2.2
        · rw [Memory.wfFrom_cons]
          subst_vars
          exact ⟨hlo, ha, ‹_›, hc.2.2.2⟩
      · rw [Memory.wfFrom_cons]
        exact ⟨hc.1, hc.2.1, hc.2.2.1, ih hc.2.2.2 (by omega)⟩

theorem Memory.wf_write {a : Nat} {m : Memory} (b : Byte) (hm : m.wf = true) (ha : a < 4096) :
    (m.write a b).wf = true := Memory.wfFrom_write b hm (Nat.zero_le a) ha

/-- A run of bytes within the address space keeps the canonical form. -/
theorem Memory.wf_writeBytes {m : Memory} (a : Nat) (bs : List Byte) (hm : m.wf = true)
    (ha : a + bs.length ≤ 4096) : (m.writeBytes a bs).wf = true := by
  induction bs generalizing a m with
  | nil => exact hm
  | cons b bs ih =>
    simp only [List.length_cons] at ha
    exact ih (a + 1) (Memory.wf_write b hm (by omega)) (by omega)

/-- A run of bytes leaves every address outside the run alone. -/
theorem Memory.read_writeBytes_other (m : Memory) {a q : Nat} (bs : List Byte) (h : q < a ∨ a + bs.length ≤ q) :
    (m.writeBytes a bs).read q = m.read q := by
  induction bs generalizing a m with
  | nil => rfl
  | cons b bs ih =>
    simp only [List.length_cons] at h
    unfold Memory.writeBytes
    rw [ih _ (by omega), Memory.read_write_other _ _ (by omega)]

/-- A read inside a run of bytes just written gives the byte of that place in the run. -/
theorem Memory.read_writeBytes_at {m : Memory} {a : Nat} (bs : List Byte) (k : Nat) (hk : k < bs.length)
    (hm : m.wf = true) (ha : a + bs.length ≤ 4096) : (m.writeBytes a bs).read (a + k) = bs[k] := by
  induction bs generalizing a m k with
  | nil => simp at hk
  | cons b bs ih =>
    simp only [List.length_cons] at ha hk
    unfold Memory.writeBytes
    cases k with
    | zero =>
      rw [Memory.read_writeBytes_other _ _ (by omega)]
      exact Memory.read_write_same _ _ hm
    | succ k =>
      have h := ih k (by omega) (Memory.wf_write b hm (by omega : a < 4096)) (a := a + 1) (by omega)
      rw [show a + (k + 1) = a + 1 + k by omega, h]
      rfl

/-- Equal memories are equal data: two canonical memories that read alike everywhere are the same list. -/
theorem Memory.ext_of_read {lo : Nat} {m n : Memory} (hm : Memory.wfFrom lo m = true) (hn : Memory.wfFrom lo n = true)
    (h : ∀ a, m.read a = n.read a) : m = n := by
  induction m generalizing lo n with
  | nil =>
    cases n with
    | nil => rfl
    | cons e n =>
      obtain ⟨k, b⟩ := e
      have hb := ((Memory.wfFrom_cons _ _ _ _).1 hn).2.2.1
      have := h k
      simp only [Memory.read_nil, Memory.read_cons, if_pos] at this
      exact absurd this.symm hb
  | cons e m ih =>
    obtain ⟨k, b⟩ := e
    obtain ⟨-, -, hb, hm'⟩ := (Memory.wfFrom_cons _ _ _ _).1 hm
    cases n with
    | nil =>
      have := h k
      simp only [Memory.read_nil, Memory.read_cons, if_pos] at this
      exact absurd this hb
    | cons e n =>
      obtain ⟨j, c⟩ := e
      obtain ⟨-, -, hc, hn'⟩ := (Memory.wfFrom_cons _ _ _ _).1 hn
      have hkj : k = j := by
        rcases Nat.lt_trichotomy k j with hlt | heq | hgt
        · have := h k
          rw [Memory.read_cons, if_pos rfl, Memory.read_cons, if_neg (by omega), Memory.read_below hn' (by omega)] at this
          exact absurd this hb
        · exact heq
        · have := h j
          rw [Memory.read_cons, if_neg (by omega), Memory.read_below hm' (by omega), Memory.read_cons, if_pos rfl] at this
          exact absurd this.symm hc
      subst hkj
      have hbc : b = c := by
        have := h k
        rwa [Memory.read_cons, if_pos rfl, Memory.read_cons, if_pos rfl] at this
      subst hbc
      have : m = n := by
        refine ih hm' hn' (fun a => ?_)
        by_cases ha : a < k + 1
        · rw [Memory.read_below hm' ha, Memory.read_below hn' ha]
        · have := h a
          rwa [Memory.read_cons, if_neg (by omega), Memory.read_cons, if_neg (by omega)] at this
      rw [this]

/-- Read of a state's byte after a run of bytes is stored outside it. -/
theorem State.readByte_writeBytes_other (s : State) {a q : Nat} (bs : List Byte) (h : q < a ∨ a + bs.length ≤ q) :
    (s.writeBytes a bs).readByte q = s.readByte q := Memory.read_writeBytes_other s.mem bs h

/-- Read of a state's byte inside a run of bytes just stored. -/
theorem State.readByte_writeBytes_at {s : State} {a : Nat} (bs : List Byte) (k : Nat) (hk : k < bs.length)
    (hm : s.mem.wf = true) (ha : a + bs.length ≤ 4096) : (s.writeBytes a bs).readByte (a + k) = bs[k] :=
  Memory.read_writeBytes_at bs k hk hm ha

end Sys2Proof.Machine
end

