-- ==== Sys2Proof/Laws/State.lean ====
section
/-! SUPPORT. For each named update of the state, one lemma per field: what the update leaves, and what it writes.
Later proofs simplify with these and never unfold a record update. -/

namespace Sys2Proof.Machine

/-! ### `setV` -/

@[simp] theorem State.setV_v (s : State) (r : RegIdx) (b : Byte) : (s.setV r b).v = s.v.set r.val b r.isLt := rfl
@[simp] theorem State.setV_pc (s : State) (r : RegIdx) (b : Byte) : (s.setV r b).pc = s.pc := rfl
@[simp] theorem State.setV_I (s : State) (r : RegIdx) (b : Byte) : (s.setV r b).I = s.I := rfl
@[simp] theorem State.setV_sp (s : State) (r : RegIdx) (b : Byte) : (s.setV r b).sp = s.sp := rfl
@[simp] theorem State.setV_stack (s : State) (r : RegIdx) (b : Byte) : (s.setV r b).stack = s.stack := rfl
@[simp] theorem State.setV_dt (s : State) (r : RegIdx) (b : Byte) : (s.setV r b).dt = s.dt := rfl
@[simp] theorem State.setV_st (s : State) (r : RegIdx) (b : Byte) : (s.setV r b).st = s.st := rfl
@[simp] theorem State.setV_key (s : State) (r : RegIdx) (b : Byte) : (s.setV r b).key = s.key := rfl
@[simp] theorem State.setV_fb (s : State) (r : RegIdx) (b : Byte) : (s.setV r b).fb = s.fb := rfl
@[simp] theorem State.setV_redraw (s : State) (r : RegIdx) (b : Byte) : (s.setV r b).redraw = s.redraw := rfl
@[simp] theorem State.setV_err (s : State) (r : RegIdx) (b : Byte) : (s.setV r b).err = s.err := rfl
@[simp] theorem State.setV_errInfo (s : State) (r : RegIdx) (b : Byte) : (s.setV r b).errInfo = s.errInfo := rfl
@[simp] theorem State.setV_mem (s : State) (r : RegIdx) (b : Byte) : (s.setV r b).mem = s.mem := rfl
@[simp] theorem State.setV_draws (s : State) (r : RegIdx) (b : Byte) : (s.setV r b).draws = s.draws := rfl
@[simp] theorem State.setV_keyIsDown (s : State) (r : RegIdx) (b : Byte) (q : KeyIdx) : (s.setV r b).keyIsDown q = s.keyIsDown q := rfl
@[simp] theorem State.setV_cell (s : State) (r : RegIdx) (b : Byte) (q : Nat) : (s.setV r b).cell q = s.cell q := rfl
@[simp] theorem State.setV_readByte (s : State) (r : RegIdx) (b : Byte) (q : Nat) : (s.setV r b).readByte q = s.readByte q := rfl
@[simp] theorem State.setV_slot (s : State) (r : RegIdx) (b : Byte) (q : Fin 12) : (s.setV r b).slot q = s.slot q := rfl

/-! ### `jump` -/

@[simp] theorem State.jump_v (s : State) (w : Word) : (s.jump w).v = s.v := rfl
@[simp] theorem State.jump_pc (s : State) (w : Word) : (s.jump w).pc = w := rfl
@[simp] theorem State.jump_I (s : State) (w : Word) : (s.jump w).I = s.I := rfl
@[simp] theorem State.jump_sp (s : State) (w : Word) : (s.jump w).sp = s.sp := rfl
@[simp] theorem State.jump_stack (s : State) (w : Word) : (s.jump w).stack = s.stack := rfl
@[simp] theorem State.jump_dt (s : State) (w : Word) : (s.jump w).dt = s.dt := rfl
@[simp] theorem State.jump_st (s : State) (w : Word) : (s.jump w).st = s.st := rfl
@[simp] theorem State.jump_key (s : State) (w : Word) : (s.jump w).key = s.key := rfl
@[simp] theorem State.jump_fb (s : State) (w : Word) : (s.jump w).fb = s.fb := rfl
@[simp] theorem State.jump_redraw (s : State) (w : Word) : (s.jump w).redraw = s.redraw := rfl
@[simp] theorem State.jump_err (s : State) (w : Word) : (s.jump w).err = s.err := rfl
@[simp] theorem State.jump_errInfo (s : State) (w : Word) : (s.jump w).errInfo = s.errInfo := rfl
@[simp] theorem State.jump_mem (s : State) (w : Word) : (s.jump w).mem = s.mem := rfl
@[simp] theorem State.jump_draws (s : State) (w : Word) : (s.jump w).draws = s.draws := rfl
@[simp] theorem State.jump_getV (s : State) (w : Word) (q : RegIdx) : (s.jump w).getV q = s.getV q := rfl
@[simp] theorem State.jump_keyIsDown (s : State) (w : Word) (q : KeyIdx) : (s.jump w).keyIsDown q = s.keyIsDown q := rfl
@[simp] theorem State.jump_cell (s : State) (w : Word) (q : Nat) : (s.jump w).cell q = s.cell q := rfl
@[simp] theorem State.jump_readByte (s : State) (w : Word) (q : Nat) : (s.jump w).readByte q = s.readByte q := rfl
@[simp] theorem State.jump_slot (s : State) (w : Word) (q : Fin 12) : (s.jump w).slot q = s.slot q := rfl

/-! ### `skip` -/

@[simp] theorem State.skip_v (s : State) : (s.skip).v = s.v := rfl
@[simp] theorem State.skip_pc (s : State) : (s.skip).pc = s.pc + 2#16 := rfl
@[simp] theorem State.skip_I (s : State) : (s.skip).I = s.I := rfl
@[simp] theorem State.skip_sp (s : State) : (s.skip).sp = s.sp := rfl
@[simp] theorem State.skip_stack (s : State) : (s.skip).stack = s.stack := rfl
@[simp] theorem State.skip_dt (s : State) : (s.skip).dt = s.dt := rfl
@[simp] theorem State.skip_st (s : State) : (s.skip).st = s.st := rfl
@[simp] theorem State.skip_key (s : State) : (s.skip).key = s.key := rfl
@[simp] theorem State.skip_fb (s : State) : (s.skip).fb = s.fb := rfl
@[simp] theorem State.skip_redraw (s : State) : (s.skip).redraw = s.redraw := rfl
@[simp] theorem State.skip_err (s : State) : (s.skip).err = s.err := rfl
@[simp] theorem State.skip_errInfo (s : State) : (s.skip).errInfo = s.errInfo := rfl
@[simp] theorem State.skip_mem (s : State) : (s.skip).mem = s.mem := rfl
@[simp] theorem State.skip_draws (s : State) : (s.skip).draws = s.draws := rfl
@[simp] theorem State.skip_getV (s : State) (q : RegIdx) : (s.skip).getV q = s.getV q := rfl
@[simp] theorem State.skip_keyIsDown (s : State) (q : KeyIdx) : (s.skip).keyIsDown q = s.keyIsDown q := rfl
@[simp] theorem State.skip_cell (s : State) (q : Nat) : (s.skip).cell q = s.cell q := rfl
@[simp] theorem State.skip_readByte (s : State) (q : Nat) : (s.skip).readByte q = s.readByte q := rfl
@[simp] theorem State.skip_slot (s : State) (q : Fin 12) : (s.skip).slot q = s.slot q := rfl

/-! ### `rewind` -/

@[simp] theorem State.rewind_v (s : State) : (s.rewind).v = s.v := rfl
@[simp] theorem State.rewind_pc (s : State) : (s.rewind).pc = s.pc - 2#16 := rfl
@[simp] theorem State.rewind_I (s : State) : (s.rewind).I = s.I := rfl
@[simp] theorem State.rewind_sp (s : State) : (s.rewind).sp = s.sp := rfl
@[simp] theorem State.rewind_stack (s : State) : (s.rewind).stack = s.stack := rfl
@[simp] theorem State.rewind_dt (s : State) : (s.rewind).dt = s.dt := rfl
@[simp] theorem State.rewind_st (s : State) : (s.rewind).st = s.st := rfl
@[simp] theorem State.rewind_key (s : State) : (s.rewind).key = s.key := rfl
@[simp] theorem State.rewind_fb (s : State) : (s.rewind).fb = s.fb := rfl
@[simp] theorem State.rewind_redraw (s : State) : (s.rewind).redraw = s.redraw := rfl
@[simp] theorem State.rewind_err (s : State) : (s.rewind).err = s.err := rfl
@[simp] theorem State.rewind_errInfo (s : State) : (s.rewind).errInfo = s.errInfo := rfl
@[simp] theorem State.rewind_mem (s : State) : (s.rewind).mem = s.mem := rfl
@[simp] theorem State.rewind_draws (s : State) : (s.rewind).draws = s.draws := rfl
@[simp] theorem State.rewind_getV (s : State) (q : RegIdx) : (s.rewind).getV q = s.getV q := rfl
@[simp] theorem State.rewind_keyIsDown (s : State) (q : KeyIdx) : (s.rewind).keyIsDown q = s.keyIsDown q := rfl
@[simp] theorem State.rewind_cell (s : State) (q : Nat) : (s.rewind).cell q = s.cell q := rfl
@[simp] theorem State.rewind_readByte (s : State) (q : Nat) : (s.rewind).readByte q = s.readByte q := rfl
@[simp] theorem State.rewind_slot (s : State) (q : Fin 12) : (s.rewind).slot q = s.slot q := rfl

/-! ### `setI` -/

@[simp] theorem State.setI_v (s : State) (w : Word) : (s.setI w).v = s.v := rfl
@[simp] theorem State.setI_pc (s : State) (w : Word) : (s.setI w).pc = s.pc := rfl
@[simp] theorem State.setI_I (s : State) (w : Word) : (s.setI w).I = w := rfl
@[simp] theorem State.setI_sp (s : State) (w : Word) : (s.setI w).sp = s.sp := rfl
@[simp] theorem State.setI_stack (s : State) (w : Word) : (s.setI w).stack = s.stack := rfl
@[simp] theorem State.setI_dt (s : State) (w : Word) : (s.setI w).dt = s.dt := rfl
@[simp] theorem State.setI_st (s : State) (w : Word) : (s.setI w).st = s.st := rfl
@[simp] theorem State.setI_key (s : State) (w : Word) : (s.setI w).key = s.key := rfl
@[simp] theorem State.setI_fb (s : State) (w : Word) : (s.setI w).fb = s.fb := rfl
@[simp] theorem State.setI_redraw (s : State) (w : Word) : (s.setI w).redraw = s.redraw := rfl
@[simp] theorem State.setI_err (s : State) (w : Word) : (s.setI w).err = s.err := rfl
@[simp] theorem State.setI_errInfo (s : State) (w : Word) : (s.setI w).errInfo = s.errInfo := rfl
@[simp] theorem State.setI_mem (s : State) (w : Word) : (s.setI w).mem = s.mem := rfl
@[simp] theorem State.setI_draws (s : State) (w : Word) : (s.setI w).draws = s.draws := rfl
@[simp] theorem State.setI_getV (s : State) (w : Word) (q : RegIdx) : (s.setI w).getV q = s.getV q := rfl
@[simp] theorem State.setI_keyIsDown (s : State) (w : Word) (q : KeyIdx) : (s.setI w).keyIsDown q = s.keyIsDown q := rfl
@[simp] theorem State.setI_cell (s : State) (w : Word) (q : Nat) : (s.setI w).cell q = s.cell q := rfl
@[simp] theorem State.setI_readByte (s : State) (w : Word) (q : Nat) : (s.setI w).readByte q = s.readByte q := rfl
@[simp] theorem State.setI_slot (s : State) (w : Word) (q : Fin 12) : (s.setI w).slot q = s.slot q := rfl

/-! ### `setDT` -/

@[simp] theorem State.setDT_v (s : State) (b : Byte) : (s.setDT b).v = s.v := rfl
@[simp] theorem State.setDT_pc (s : State) (b : Byte) : (s.setDT b).pc = s.pc := rfl
@[simp] theorem State.setDT_I (s : State) (b : Byte) : (s.setDT b).I = s.I := rfl
@[simp] theorem State.setDT_sp (s : State) (b : Byte) : (s.setDT b).sp = s.sp := rfl
@[simp] theorem State.setDT_stack (s : State) (b : Byte) : (s.setDT b).stack = s.stack := rfl
@[simp] theorem State.setDT_dt (s : State) (b : Byte) : (s.setDT b).dt = b := rfl
@[simp] theorem State.setDT_st (s : State) (b : Byte) : (s.setDT b).st = s.st := rfl
@[simp] theorem State.setDT_key (s : State) (b : Byte) : (s.setDT b).key = s.key := rfl
@[simp] theorem State.setDT_fb (s : State) (b : Byte) : (s.setDT b).fb = s.fb := rfl
@[simp] theorem State.setDT_redraw (s : State) (b : Byte) : (s.setDT b).redraw = s.redraw := rfl
@[simp] theorem State.setDT_err (s : State) (b : Byte) : (s.setDT b).err = s.err := rfl
@[simp] theorem State.setDT_errInfo (s : State) (b : Byte) : (s.setDT b).errInfo = s.errInfo := rfl
@[simp] theorem State.setDT_mem (s : State) (b : Byte) : (s.setDT b).mem = s.mem := rfl
@[simp] theorem State.setDT_draws (s : State) (b : Byte) : (s.setDT b).draws = s.draws := rfl
@[simp] theorem State.setDT_getV (s : State) (b : Byte) (q : RegIdx) : (s.setDT b).getV q = s.getV q := rfl
@[simp] theorem State.setDT_keyIsDown (s : State) (b : Byte) (q : KeyIdx) : (s.setDT b).keyIsDown q = s.keyIsDown q := rfl
@[simp] theorem State.setDT_cell (s : State) (b : Byte) (q : Nat) : (s.setDT b).cell q = s.cell q := rfl
@[simp] theorem State.setDT_readByte (s : State) (b : Byte) (q : Nat) : (s.setDT b).readByte q = s.readByte q := rfl
@[simp] theorem State.setDT_slot (s : State) (b : Byte) (q : Fin 12) : (s.setDT b).slot q = s.slot q := rfl

/-! ### `setST` -/

@[simp] theorem State.setST_v (s : State) (b : Byte) : (s.setST b).v = s.v := rfl
@[simp] theorem State.setST_pc (s : State) (b : Byte) : (s.setST b).pc = s.pc := rfl
@[simp] theorem State.setST_I (s : State) (b : Byte) : (s.setST b).I = s.I := rfl
@[simp] theorem State.setST_sp (s : State) (b : Byte) : (s.setST b).sp = s.sp := rfl
@[simp] theorem State.setST_stack (s : State) (b : Byte) : (s.setST b).stack = s.stack := rfl
@[simp] theorem State.setST_dt (s : State) (b : Byte) : (s.setST b).dt = s.dt := rfl
@[simp] theorem State.setST_st (s : State) (b : Byte) : (s.setST b).st = b := rfl
@[simp] theorem State.setST_key (s : State) (b : Byte) : (s.setST b).key = s.key := rfl
@[simp] theorem State.setST_fb (s : State) (b : Byte) : (s.setST b).fb = s.fb := rfl
@[simp] theorem State.setST_redraw (s : State) (b : Byte) : (s.setST b).redraw = s.redraw := rfl
@[simp] theorem State.setST_err (s : State) (b : Byte) : (s.setST b).err = s.err := rfl
@[simp] theorem State.setST_errInfo (s : State) (b : Byte) : (s.setST b).errInfo = s.errInfo := rfl
@[simp] theorem State.setST_mem (s : State) (b : Byte) : (s.setST b).mem = s.mem := rfl
@[simp] theorem State.setST_draws (s : State) (b : Byte) : (s.setST b).draws = s.draws := rfl
@[simp] theorem State.setST_getV (s : State) (b : Byte) (q : RegIdx) : (s.setST b).getV q = s.getV q := rfl
@[simp] theorem State.setST_keyIsDown (s : State) (b : Byte) (q : KeyIdx) : (s.setST b).keyIsDown q = s.keyIsDown q := rfl
@[simp] theorem State.setST_cell (s : State) (b : Byte) (q : Nat) : (s.setST b).cell q = s.cell q := rfl
@[simp] theorem State.setST_readByte (s : State) (b : Byte) (q : Nat) : (s.setST b).readByte q = s.readByte q := rfl
@[simp] theorem State.setST_slot (s : State) (b : Byte) (q : Fin 12) : (s.setST b).slot q = s.slot q := rfl

/-! ### `setKey` -/

@[simp] theorem State.setKey_v (s : State) (k : KeyIdx) (d : Bool) : (s.setKey k d).v = s.v := rfl
@[simp] theorem State.setKey_pc (s : State) (k : KeyIdx) (d : Bool) : (s.setKey k d).pc = s.pc := rfl
@[simp] theorem State.setKey_I (s : State) (k : KeyIdx) (d : Bool) : (s.setKey k d).I = s.I := rfl
@[simp] theorem State.setKey_sp (s : State) (k : KeyIdx) (d : Bool) : (s.setKey k d).sp = s.sp := rfl
@[simp] theorem State.setKey_stack (s : State) (k : KeyIdx) (d : Bool) : (s.setKey k d).stack = s.stack := rfl
@[simp] theorem State.setKey_dt (s : State) (k : KeyIdx) (d : Bool) : (s.setKey k d).dt = s.dt := rfl
@[simp] theorem State.setKey_st (s : State) (k : KeyIdx) (d : Bool) : (s.setKey k d).st = s.st := rfl
@[simp] theorem State.setKey_key (s : State) (k : KeyIdx) (d : Bool) : (s.setKey k d).key = s.key.set k.val d k.isLt := rfl
@[simp] theorem State.setKey_fb (s : State) (k : KeyIdx) (d : Bool) : (s.setKey k d).fb = s.fb := rfl
@[simp] theorem State.setKey_redraw (s : State) (k : KeyIdx) (d : Bool) : (s.setKey k d).redraw = s.redraw := rfl
@[simp] theorem State.setKey_err (s : State) (k : KeyIdx) (d : Bool) : (s.setKey k d).err = s.err := rfl
@[simp] theorem State.setKey_errInfo (s : State) (k : KeyIdx) (d : Bool) : (s.setKey k d).errInfo = s.errInfo := rfl
@[simp] theorem State.setKey_mem (s : State) (k : KeyIdx) (d : Bool) : (s.setKey k d).mem = s.mem := rfl
@[simp] theorem State.setKey_draws (s : State) (k : KeyIdx) (d : Bool) : (s.setKey k d).draws = s.draws := rfl
@[simp] theorem State.setKey_getV (s : State) (k : KeyIdx) (d : Bool) (q : RegIdx) : (s.setKey k d).getV q = s.getV q := rfl
@[simp] theorem State.setKey_cell (s : State) (k : KeyIdx) (d : Bool) (q : Nat) : (s.setKey k d).cell q = s.cell q := rfl
@[simp] theorem State.setKey_readByte (s : State) (k : KeyIdx) (d : Bool) (q : Nat) : (s.setKey k d).readByte q = s.readByte q := rfl
@[simp] theorem State.setKey_slot (s : State) (k : KeyIdx) (d : Bool) (q : Fin 12) : (s.setKey k d).slot q = s.slot q := rfl

/-! ### `flipCell` -/

@[simp] theorem State.flipCell_v (s : State) (c : Nat) : (s.flipCell c).v = s.v := by unfold State.flipCell; split <;> rfl
@[simp] theorem State.flipCell_pc (s : State) (c : Nat) : (s.flipCell c).pc = s.pc := by unfold State.flipCell; split <;> rfl
@[simp] theorem State.flipCell_I (s : State) (c : Nat) : (s.flipCell c).I = s.I := by unfold State.flipCell; split <;> rfl
@[simp] theorem State.flipCell_sp (s : State) (c : Nat) : (s.flipCell c).sp = s.sp := by unfold State.flipCell; split <;> rfl
@[simp] theorem State.flipCell_stack (s : State) (c : Nat) : (s.flipCell c).stack = s.stack := by unfold State.flipCell; split <;> rfl
@[simp] theorem State.flipCell_dt (s : State) (c : Nat) : (s.flipCell c).dt = s.dt := by unfold State.flipCell; split <;> rfl
@[simp] theorem State.flipCell_st (s : State) (c : Nat) : (s.flipCell c).st = s.st := by unfold State.flipCell; split <;> rfl
@[simp] theorem State.flipCell_key (s : State) (c : Nat) : (s.flipCell c).key = s.key := by unfold State.flipCell; split <;> rfl
@[simp] theorem State.flipCell_redraw (s : State) (c : Nat) : (s.flipCell c).redraw = s.redraw := by unfold State.flipCell; split <;> rfl
@[simp] theorem State.flipCell_err (s : State) (c : Nat) : (s.flipCell c).err = s.err := by unfold State.flipCell; split <;> rfl
@[simp] theorem State.flipCell_errInfo (s : State) (c : Nat) : (s.flipCell c).errInfo = s.errInfo := by unfold State.flipCell; split <;> rfl
@[simp] theorem State.flipCell_mem (s : State) (c : Nat) : (s.flipCell c).mem = s.mem := by unfold State.flipCell; split <;> rfl
@[simp] theorem State.flipCell_draws (s : State) (c : Nat) : (s.flipCell c).draws = s.draws := by unfold State.flipCell; split <;> rfl
@[simp] theorem State.flipCell_getV (s : State) (c : Nat) (q : RegIdx) : (s.flipCell c).getV q = s.getV q := by unfold State.getV; simp
@[simp] theorem State.flipCell_keyIsDown (s : State) (c : Nat) (q : KeyIdx) : (s.flipCell c).keyIsDown q = s.keyIsDown q := by unfold State.keyIsDown; simp
@[simp] theorem State.flipCell_readByte (s : State) (c : Nat) (q : Nat) : (s.flipCell c).readByte q = s.readByte q := by unfold State.readByte; simp
@[simp] theorem State.flipCell_slot (s : State) (c : Nat) (q : Fin 12) : (s.flipCell c).slot q = s.slot q := by unfold State.slot; simp

/-! ### `clearCells` -/

@[simp] theorem State.clearCells_v (s : State) : (s.clearCells).v = s.v := rfl
@[simp] theorem State.clearCells_pc (s : State) : (s.clearCells).pc = s.pc := rfl
@[simp] theorem State.clearCells_I (s : State) : (s.clearCells).I = s.I := rfl
@[simp] theorem State.clearCells_sp (s : State) : (s.clearCells).sp = s.sp := rfl
@[simp] theorem State.clearCells_stack (s : State) : (s.clearCells).stack = s.stack := rfl
@[simp] theorem State.clearCells_dt (s : State) : (s.clearCells).dt = s.dt := rfl
@[simp] theorem State.clearCells_st (s : State) : (s.clearCells).st = s.st := rfl
@[simp] theorem State.clearCells_key (s : State) : (s.clearCells).key = s.key := rfl
@[simp] theorem State.clearCells_fb (s : State) : (s.clearCells).fb = Vector.replicate 32 0#64 := rfl
@[simp] theorem State.clearCells_redraw (s : State) : (s.clearCells).redraw = s.redraw := rfl
@[simp] theorem State.clearCells_err (s : State) : (s.clearCells).err = s.err := rfl
@[simp] theorem State.clearCells_errInfo (s : State) : (s.clearCells).errInfo = s.errInfo := rfl
@[simp] theorem State.clearCells_mem (s : State) : (s.clearCells).mem = s.mem := rfl
@[simp] theorem State.clearCells_draws (s : State) : (s.clearCells).draws = s.draws := rfl
@[simp] theorem State.clearCells_getV (s : State) (q : RegIdx) : (s.clearCells).getV q = s.getV q := rfl
@[simp] theorem State.clearCells_keyIsDown (s : State) (q : KeyIdx) : (s.clearCells).keyIsDown q = s.keyIsDown q := rfl
@[simp] theorem State.clearCells_readByte (s : State) (q : Nat) : (s.clearCells).readByte q = s.readByte q := rfl
@[simp] theorem State.clearCells_slot (s : State) (q : Fin 12) : (s.clearCells).slot q = s.slot q := rfl

/-! ### `setRedraw` -/

@[simp] theorem State.setRedraw_v (s : State) (d : Bool) : (s.setRedraw d).v = s.v := rfl
@[simp] theorem State.setRedraw_pc (s : State) (d : Bool) : (s.setRedraw d).pc = s.pc := rfl
@[simp] theorem State.setRedraw_I (s : State) (d : Bool) : (s.setRedraw d).I = s.I := rfl
@[simp] theorem State.setRedraw_sp (s : State) (d : Bool) : (s.setRedraw d).sp = s.sp := rfl
@[simp] theorem State.setRedraw_stack (s : State) (d : Bool) : (s.setRedraw d).stack = s.stack := rfl
@[simp] theorem State.setRedraw_dt (s : State) (d : Bool) : (s.setRedraw d).dt = s.dt := rfl
@[simp] theorem State.setRedraw_st (s : State) (d : Bool) : (s.setRedraw d).st = s.st := rfl
@[simp] theorem State.setRedraw_key (s : State) (d : Bool) : (s.setRedraw d).key = s.key := rfl
@[simp] theorem State.setRedraw_fb (s : State) (d : Bool) : (s.setRedraw d).fb = s.fb := rfl
@[simp] theorem State.setRedraw_redraw (s : State) (d : Bool) : (s.setRedraw d).redraw = d := rfl
@[simp] theorem State.setRedraw_err (s : State) (d : Bool) : (s.setRedraw d).err = s.err := rfl
@[simp] theorem State.setRedraw_errInfo (s : State) (d : Bool) : (s.setRedraw d).errInfo = s.errInfo := rfl
@[simp] theorem State.setRedraw_mem (s : State) (d : Bool) : (s.setRedraw d).mem = s.mem := rfl
@[simp] theorem State.setRedraw_draws (s : State) (d : Bool) : (s.setRedraw d).draws = s.draws := rfl
@[simp] theorem State.setRedraw_getV (s : State) (d : Bool) (q : RegIdx) : (s.setRedraw d).getV q = s.getV q := rfl
@[simp] theorem State.setRedraw_keyIsDown (s : State) (d : Bool) (q : KeyIdx) : (s.setRedraw d).keyIsDown q = s.keyIsDown q := rfl
@[simp] theorem State.setRedraw_cell (s : State) (d : Bool) (q : Nat) : (s.setRedraw d).cell q = s.cell q := rfl
@[simp] theorem State.setRedraw_readByte (s : State) (d : Bool) (q : Nat) : (s.setRedraw d).readByte q = s.readByte q := rfl
@[simp] theorem State.setRedraw_slot (s : State) (d : Bool) (q : Fin 12) : (s.setRedraw d).slot q = s.slot q := rfl

/-! ### `writeBytes` -/

@[simp] theorem State.writeBytes_v (s : State) (a : Nat) (bs : List Byte) : (s.writeBytes a bs).v = s.v := rfl
@[simp] theorem State.writeBytes_pc (s : State) (a : Nat) (bs : List Byte) : (s.writeBytes a bs).pc = s.pc := rfl
@[simp] theorem State.writeBytes_I (s : State) (a : Nat) (bs : List Byte) : (s.writeBytes a bs).I = s.I := rfl
@[simp] theorem State.writeBytes_sp (s : State) (a : Nat) (bs : List Byte) : (s.writeBytes a bs).sp = s.sp := rfl
@[simp] theorem State.writeBytes_stack (s : State) (a : Nat) (bs : List Byte) : (s.writeBytes a bs).stack = s.stack := rfl
@[simp] theorem State.writeBytes_dt (s : State) (a : Nat) (bs : List Byte) : (s.writeBytes a bs).dt = s.dt := rfl
@[simp] theorem State.writeBytes_st (s : State) (a : Nat) (bs : List Byte) : (s.writeBytes a bs).st = s.st := rfl
@[simp] theorem State.writeBytes_key (s : State) (a : Nat) (bs : List Byte) : (s.writeBytes a bs).key = s.key := rfl
@[simp] theorem State.writeBytes_fb (s : State) (a : Nat) (bs : List Byte) : (s.writeBytes a bs).fb = s.fb := rfl
@[simp] theorem State.writeBytes_redraw (s : State) (a : Nat) (bs : List Byte) : (s.writeBytes a bs).redraw = s.redraw := rfl
@[simp] theorem State.writeBytes_err (s : State) (a : Nat) (bs : List Byte) : (s.writeBytes a bs).err = s.err := rfl
@[simp] theorem State.writeBytes_errInfo (s : State) (a : Nat) (bs : List Byte) : (s.writeBytes a bs).errInfo = s.errInfo := rfl
@[simp] theorem State.writeBytes_mem (s : State) (a : Nat) (bs : List Byte) : (s.writeBytes a bs).mem = s.mem.writeBytes a bs := rfl
@[simp] theorem State.writeBytes_draws (s : State) (a : Nat) (bs : List Byte) : (s.writeBytes a bs).draws = s.draws := rfl
@[simp] theorem State.writeBytes_getV (s : State) (a : Nat) (bs : List Byte) (q : RegIdx) : (s.writeBytes a bs).getV q = s.getV q := rfl
@[simp] theorem State.writeBytes_keyIsDown (s : State) (a : Nat) (bs : List Byte) (q : KeyIdx) : (s.writeBytes a bs).keyIsDown q = s.keyIsDown q := rfl
@[simp] theorem State.writeBytes_cell (s : State) (a : Nat) (bs : List Byte) (q : Nat) : (s.writeBytes a bs).cell q = s.cell q := rfl
@[simp] theorem State.writeBytes_slot (s : State) (a : Nat) (bs : List Byte) (q : Fin 12) : (s.writeBytes a bs).slot q = s.slot q := rfl

/-! ### `latch` -/

@[simp] theorem State.latch_v (s : State) (f : Fault) (n : Nat) : (s.latch f n).v = s.v := rfl
@[simp] theorem State.latch_pc (s : State) (f : Fault) (n : Nat) : (s.latch f n).pc = s.pc := rfl
@[simp] theorem State.latch_I (s : State) (f : Fault) (n : Nat) : (s.latch f n).I = s.I := rfl
@[simp] theorem State.latch_sp (s : State) (f : Fault) (n : Nat) : (s.latch f n).sp = s.sp := rfl
@[simp] theorem State.latch_stack (s : State) (f : Fault) (n : Nat) : (s.latch f n).stack = s.stack := rfl
@[simp] theorem State.latch_dt (s : State) (f : Fault) (n : Nat) : (s.latch f n).dt = s.dt := rfl
@[simp] theorem State.latch_st (s : State) (f : Fault) (n : Nat) : (s.latch f n).st = s.st := rfl
@[simp] theorem State.latch_key (s : State) (f : Fault) (n : Nat) : (s.latch f n).key = s.key := rfl
@[simp] theorem State.latch_fb (s : State) (f : Fault) (n : Nat) : (s.latch f n).fb = s.fb := rfl
@[simp] theorem State.latch_redraw (s : State) (f : Fault) (n : Nat) : (s.latch f n).redraw = s.redraw := rfl
@[simp] theorem State.latch_err (s : State) (f : Fault) (n : Nat) : (s.latch f n).err = some f := rfl
@[simp] theorem State.latch_errInfo (s : State) (f : Fault) (n : Nat) : (s.latch f n).errInfo = BitVec.ofNat 16 n := rfl
@[simp] theorem State.latch_mem (s : State) (f : Fault) (n : Nat) : (s.latch f n).mem = s.mem := rfl
@[simp] theorem State.latch_draws (s : State) (f : Fault) (n : Nat) : (s.latch f n).draws = s.draws := rfl
@[simp] theorem State.latch_getV (s : State) (f : Fault) (n : Nat) (q : RegIdx) : (s.latch f n).getV q = s.getV q := rfl
@[simp] theorem State.latch_keyIsDown (s : State) (f : Fault) (n : Nat) (q : KeyIdx) : (s.latch f n).keyIsDown q = s.keyIsDown q := rfl
@[simp] theorem State.latch_cell (s : State) (f : Fault) (n : Nat) (q : Nat) : (s.latch f n).cell q = s.cell q := rfl
@[simp] theorem State.latch_readByte (s : State) (f : Fault) (n : Nat) (q : Nat) : (s.latch f n).readByte q = s.readByte q := rfl
@[simp] theorem State.latch_slot (s : State) (f : Fault) (n : Nat) (q : Fin 12) : (s.latch f n).slot q = s.slot q := rfl

/-! ### `clearErr` -/

@[simp] theorem State.clearErr_v (s : State) : (s.clearErr).v = s.v := rfl
@[simp] theorem State.clearErr_pc (s : State) : (s.clearErr).pc = s.pc := rfl
@[simp] theorem State.clearErr_I (s : State) : (s.clearErr).I = s.I := rfl
@[simp] theorem State.clearErr_sp (s : State) : (s.clearErr).sp = s.sp := rfl
@[simp] theorem State.clearErr_stack (s : State) : (s.clearErr).stack = s.stack := rfl
@[simp] theorem State.clearErr_dt (s : State) : (s.clearErr).dt = s.dt := rfl
@[simp] theorem State.clearErr_st (s : State) : (s.clearErr).st = s.st := rfl
@[simp] theorem State.clearErr_key (s : State) : (s.clearErr).key = s.key := rfl
@[simp] theorem State.clearErr_fb (s : State) : (s.clearErr).fb = s.fb := rfl
@[simp] theorem State.clearErr_redraw (s : State) : (s.clearErr).redraw = s.redraw := rfl
@[simp] theorem State.clearErr_err (s : State) : (s.clearErr).err = none := rfl
@[simp] theorem State.clearErr_errInfo (s : State) : (s.clearErr).errInfo = s.errInfo := rfl
@[simp] theorem State.clearErr_mem (s : State) : (s.clearErr).mem = s.mem := rfl
@[simp] theorem State.clearErr_draws (s : State) : (s.clearErr).draws = s.draws := rfl
@[simp] theorem State.clearErr_getV (s : State) (q : RegIdx) : (s.clearErr).getV q = s.getV q := rfl
@[simp] theorem State.clearErr_keyIsDown (s : State) (q : KeyIdx) : (s.clearErr).keyIsDown q = s.keyIsDown q := rfl
@[simp] theorem State.clearErr_cell (s : State) (q : Nat) : (s.clearErr).cell q = s.cell q := rfl
@[simp] theorem State.clearErr_readByte (s : State) (q : Nat) : (s.clearErr).readByte q = s.readByte q := rfl
@[simp] theorem State.clearErr_slot (s : State) (q : Fin 12) : (s.clearErr).slot q = s.slot q := rfl

/-! ### `advance` -/

@[simp] theorem State.advance_v (s : State) : (s.advance).v = s.v := rfl
@[simp] theorem State.advance_pc (s : State) : (s.advance).pc = s.pc + 2#16 := rfl
@[simp] theorem State.advance_I (s : State) : (s.advance).I = s.I := rfl
@[simp] theorem State.advance_sp (s : State) : (s.advance).sp = s.sp := rfl
@[simp] theorem State.advance_stack (s : State) : (s.advance).stack = s.stack := rfl
@[simp] theorem State.advance_dt (s : State) : (s.advance).dt = s.dt := rfl
@[simp] theorem State.advance_st (s : State) : (s.advance).st = s.st := rfl
@[simp] theorem State.advance_key (s : State) : (s.advance).key = s.key := rfl
@[simp] theorem State.advance_fb (s : State) : (s.advance).fb = s.fb := rfl
@[simp] theorem State.advance_redraw (s : State) : (s.advance).redraw = false := rfl
@[simp] theorem State.advance_err (s : State) : (s.advance).err = s.err := rfl
@[simp] theorem State.advance_errInfo (s : State) : (s.advance).errInfo = s.errInfo := rfl
@[simp] theorem State.advance_mem (s : State) : (s.advance).mem = s.mem := rfl
@[simp] theorem State.advance_draws (s : State) : (s.advance).draws = s.draws := rfl
@[simp] theorem State.advance_getV (s : State) (q : RegIdx) : (s.advance).getV q = s.getV q := rfl
@[simp] theorem State.advance_keyIsDown (s : State) (q : KeyIdx) : (s.advance).keyIsDown q = s.keyIsDown q := rfl
@[simp] theorem State.advance_cell (s : State) (q : Nat) : (s.advance).cell q = s.cell q := rfl
@[simp] theorem State.advance_readByte (s : State) (q : Nat) : (s.advance).readByte q = s.readByte q := rfl
@[simp] theorem State.advance_slot (s : State) (q : Fin 12) : (s.advance).slot q = s.slot q := rfl

end Sys2Proof.Machine
end

