-- ==== Sys2Proof/Laws/Ops.lean ====
section
/-! SUPPORT. One lemma for each shared operation that says once everything it does; later proofs cite these and do not
unfold the operations. -/

namespace Sys2Proof.Machine

/-! ### Registers and latches -/

/-- A register after a register write. -/
@[simp] theorem State.setV_getV (s : State) (r q : RegIdx) (b : Byte) :
    (s.setV r b).getV q = if q = r then b else s.getV q := by
  unfold State.getV State.setV
  by_cases h : q = r
  · subst h; simp
  · have h' : r.val ≠ q.val := fun e => h (Fin.ext e.symm)
    simp [h, h']

/-- A latch after a latch write. -/
@[simp] theorem State.setKey_keyIsDown (s : State) (k q : KeyIdx) (d : Bool) :
    (s.setKey k d).keyIsDown q = if q = k then d else s.keyIsDown q := by
  unfold State.keyIsDown State.setKey
  by_cases h : q = k
  · subst h; simp
  · have h' : k.val ≠ q.val := fun e => h (Fin.ext e.symm)
    simp [h, h']

/-! ### Cells -/

/-- A cell after a cell is flipped. -/
theorem State.flipCell_cell (s : State) {c q : Nat} (hc : c < 2048) :
    (s.flipCell c).cell q = if q = c then !s.cell q else s.cell q := by
  unfold State.flipCell State.cell
  rw [dif_pos (show c < Config.fbCells from hc)]
  by_cases hq : q < Config.fbCells
  · rw [dif_pos hq, dif_pos hq]
    simp only [Config.fbW] at *
    by_cases hrow : c / 64 = q / 64
    · by_cases h : q = c
      · subst h
        simp only [Vector.getElem_set_self, BitVec.getLsbD_xor, BitVec.getLsbD_twoPow, if_pos]
        have : q % 64 < 64 := by omega
        simp [this]
      · have hne : c % 64 ≠ q % 64 := by omega
        simp only [hrow, Vector.getElem_set_self, BitVec.getLsbD_xor, BitVec.getLsbD_twoPow, if_neg h]
        simp [hne]
    · have h : q ≠ c := fun e => hrow (by rw [e])
      rw [if_neg h, Vector.getElem_set_ne _ _ hrow]
  · rw [dif_neg hq, dif_neg hq]
    have : q ≠ c := by
      simp only [Config.fbCells] at *
      omega
    rw [if_neg this]

/-- Every cell is 0 once the screen is cleared. -/
@[simp] theorem State.clearCells_cell (s : State) (q : Nat) : s.clearCells.cell q = false := by
  unfold State.cell State.clearCells
  split <;> simp

/-- The cell of a wrapped pixel is one of the 2048. -/
theorem cellOf_lt (px py : Nat) : cellOf (px % 64) (py % 32) < 2048 := by
  simp only [cellOf, Config.fbW]
  omega

/-- Different pixels have different cells. -/
theorem cellOf_inj {px py qx qy : Nat} (hp : px < 64) (hq : qx < 64) (h : cellOf px py = cellOf qx qy) :
    px = qx ∧ py = qy := by
  simp only [cellOf, Config.fbW] at h
  omega

/-! ### Stack -/

/-- Push succeeds below twelve entries, and then writes the slot at `sp`, adds 1 to `sp` and nothing else. -/
theorem State.push_eq_some {s t : State} {w : Word} (h : s.push w = some t) :
    ∃ hs : s.sp.val < 12, t = { s with stack := s.stack.set s.sp.val w hs, sp := ⟨s.sp.val + 1, Nat.succ_lt_succ hs⟩ } := by
  unfold State.push at h
  split at h
  · exact ⟨‹_›, (Option.some.inj h).symm⟩
  · cases h

theorem State.push_eq_none {s : State} {w : Word} : s.push w = none ↔ s.sp.val = 12 := by
  unfold State.push
  split
  · rename_i h; simp only [Config.stackDepth] at h; constructor <;> intro hh
    · cases hh
    · omega
  · rename_i h; simp only [Config.stackDepth] at h; have := s.sp.isLt; simp; omega

/-- Pop succeeds above zero entries, and then takes 1 off `sp` and writes nothing else. -/
theorem State.pop_eq_some {s t : State} {w : Word} (h : s.pop = some (w, t)) :
    ∃ (k : Fin 12), s.sp.val = k.val + 1 ∧ w = s.slot k ∧ t = { s with sp := ⟨k.val, Nat.lt_succ_of_lt k.isLt⟩ } := by
  unfold State.pop at h
  split at h
  · rename_i h0
    obtain ⟨h1, h2⟩ := Prod.mk.inj (Option.some.inj h)
    have := s.sp.isLt
    exact ⟨⟨s.sp.val - 1, by omega⟩, by simp; omega, h1.symm, h2.symm⟩
  · cases h

theorem State.pop_eq_none {s : State} : s.pop = none ↔ s.sp.val = 0 := by
  unfold State.pop
  split
  · simp; omega
  · simp; omega

/-! ### The data range -/

/-- Whether a range fits, as integers (R52). -/
theorem dataRangeFits_iff (s : State) (len : Nat) :
    dataRangeFits s len = true ↔ len = 0 ∨ s.I.toNat + (len - 1) ≤ 0xFFF := by
  unfold dataRangeFits
  exact decide_eq_true_iff

/-- Everything an instruction over a data range can answer: its effect when the range fits, else the fault, with
nothing of the effect done. -/
theorem withDataRange_cases {len : Nat} {s t : State} {effect : State → State}
    (h : withDataRange len s effect = .next t) :
    ((len = 0 ∨ s.I.toNat + (len - 1) ≤ 0xFFF) ∧ t = effect s) ∨
      ((0 < len ∧ 0xFFF < s.I.toNat + (len - 1)) ∧ t = s.latch .dataAddressOutOfRange (max s.I.toNat 4096)) := by
  unfold withDataRange at h
  split at h
  · rename_i hf
    rw [dataRangeFits_iff] at hf
    cases h
    exact .inl ⟨hf, rfl⟩
  · rename_i hf
    rw [dataRangeFits_iff] at hf
    cases h
    exact .inr ⟨by omega, rfl⟩

theorem withDataRange_fits {len : Nat} {s : State} {effect : State → State}
    (h : len = 0 ∨ s.I.toNat + (len - 1) ≤ 0xFFF) : withDataRange len s effect = .next (effect s) := by
  unfold withDataRange
  rw [if_pos ((dataRangeFits_iff s len).2 h)]

theorem withDataRange_faults {len : Nat} {s : State} {effect : State → State} (h0 : 0 < len)
    (h : 0xFFF < s.I.toNat + (len - 1)) :
    withDataRange len s effect = raise .dataAddressOutOfRange (max s.I.toNat 4096) s := by
  unfold withDataRange
  rw [if_neg (by rw [dataRangeFits_iff]; omega)]
  rfl

/-! ### Register ranges -/

@[simp] theorem mem_regsUpTo (x r : RegIdx) : r ∈ regsUpTo x ↔ r ≤ x := by
  revert x r
  decide

@[simp] theorem length_regsUpTo (x : RegIdx) : (regsUpTo x).length = x.val + 1 := by
  revert x
  decide

theorem getElem_regsUpTo (x : RegIdx) (k : Nat) (h : k < (regsUpTo x).length) :
    (regsUpTo x)[k] = ⟨k, by have := length_regsUpTo x; have := x.isLt; omega⟩ := by
  simp [regsUpTo, List.getElem_take]

/-- A register load writes registers only. -/
theorem loadRegList_frame (rs : List RegIdx) (s : State) : ∃ v, loadRegList rs s = { s with v := v } := by
  unfold loadRegList
  induction rs generalizing s with
  | nil => exact ⟨s.v, rfl⟩
  | cons r rs ih =>
    obtain ⟨v, hv⟩ := ih (s.setV r (s.readByte (dataAddr s r.val)))
    exact ⟨v, hv⟩

/-- Each register of the list is loaded from its own address; the others keep their values. -/
theorem loadRegList_getV (rs : List RegIdx) (s : State) (q : RegIdx) :
    (loadRegList rs s).getV q = if q ∈ rs then s.readByte (dataAddr s q.val) else s.getV q := by
  unfold loadRegList
  induction rs generalizing s with
  | nil => simp
  | cons r rs ih =>
    rw [List.foldl_cons, ih]
    by_cases hq : q ∈ rs
    · simp [hq, dataAddr]
    · by_cases hr : q = r
      · subst hr; simp [hq, dataAddr]
      · simp [hq, hr]

/-! ### The key scan -/

/-- The scan finds nothing exactly when no key is down. -/
theorem State.scanKeys_eq_none {s : State} : s.scanKeys = none ↔ ∀ k, s.keyIsDown k = false := by
  have gen : ∀ (l : List KeyIdx) (acc : Option KeyIdx),
      (l.foldl (fun found k => if s.keyIsDown k then some k else found) acc) = none ↔
        acc = none ∧ ∀ k ∈ l, s.keyIsDown k = false := by
    intro l
    induction l with
    | nil => simp
    | cons k l ih =>
      intro acc
      rw [List.foldl_cons, ih]
      by_cases hk : s.keyIsDown k = true <;> simp [hk]
  unfold State.scanKeys
  rw [gen]
  simp

/-- A pressed key with none pressed above it is what the scan finds. -/
theorem State.scanKeys_eq_some {s : State} {k : KeyIdx} (hk : s.keyIsDown k = true)
    (above : ∀ j, k < j → s.keyIsDown j = false) : s.scanKeys = some k := by
  have gen : ∀ (l : List KeyIdx) (acc : Option KeyIdx), l.Pairwise (· < ·) →
      (k ∈ l ∨ (acc = some k ∧ ∀ j ∈ l, k < j)) →
      (l.foldl (fun found k => if s.keyIsDown k then some k else found) acc) = some k := by
    intro l
    induction l with
    | nil => intro acc _ h; simpa using h
    | cons j l ih =>
      intro acc hp h
      rw [List.pairwise_cons] at hp
      rw [List.foldl_cons]
      refine ih _ hp.2 ?_
      by_cases hj : k = j
      · subst hj
        exact .inr ⟨by simp [hk], hp.1⟩
      · rcases h with h | ⟨h, hall⟩
        · exact .inl (by simpa [hj] using h)
        · refine .inr ⟨?_, fun i hi => hall i (List.mem_cons_of_mem _ hi)⟩
          rw [above j (hall j List.mem_cons_self)]
          simpa using h
  exact gen _ _ (by decide) (.inl (List.mem_finRange k))

/-! ### Flags -/

/-- A flag value is 0 or 1 (R21). -/
theorem flagOf_cases (c : Bool) : flagOf c = 0#8 ∨ flagOf c = 1#8 := by
  cases c
  · exact .inl rfl
  · exact .inr rfl

/-- Flag first, result second: what every register holds afterwards (R8, R111). -/
theorem flagThenResult_getV (x q : RegIdx) (flag : Byte) (result : State → Byte) (s : State) :
    (flagThenResult x flag result s).getV q =
      if q = x then result (s.setV vf flag) else if q = vf then flag else s.getV q := by
  simp [flagThenResult]

/-- Flag and result touch registers only. -/
theorem flagThenResult_frame (x : RegIdx) (flag : Byte) (result : State → Byte) (s : State) :
    ∃ v, flagThenResult x flag result s = { s with v := v } := ⟨_, rfl⟩

end Sys2Proof.Machine
end

