-- ==== Sys2Proof/Laws/Graphics.lean ====
section
/-! SUPPORT. What the sprite blitter reads and writes (R161, R166): it writes `VF` and cells, and nothing else. -/

namespace Sys2Proof.Machine

/-- Two states that differ at most in `VF` and in cells. -/
structure SameButVFAndCells (s t : State) : Prop where
  registers : ∀ r, r ≠ vf → t.getV r = s.getV r
  rest : t = { s with v := t.v, fb := t.fb }

theorem SameButVFAndCells.refl (s : State) : SameButVFAndCells s s := ⟨fun _ _ => rfl, rfl⟩

theorem SameButVFAndCells.trans {s t u : State} (h : SameButVFAndCells s t) (k : SameButVFAndCells t u) :
    SameButVFAndCells s u := by
  refine ⟨fun r hr => (k.registers r hr).trans (h.registers r hr), ?_⟩
  have hk := k.rest
  rw [h.rest] at hk
  exact hk

/-- The memory a draw reads is the memory it started from. -/
theorem SameButVFAndCells.readByte {s t : State} (h : SameButVFAndCells s t) (a : Nat) :
    t.readByte a = s.readByte a := by rw [h.rest]; rfl

theorem SameButVFAndCells.dataAddr {s t : State} (h : SameButVFAndCells s t) (k : Nat) :
    dataAddr t k = Machine.dataAddr s k := by rw [h.rest]; rfl

theorem SameButVFAndCells.setVF (s : State) (b : Byte) : SameButVFAndCells s (s.setV vf b) :=
  ⟨fun r hr => by simp [hr], rfl⟩

theorem SameButVFAndCells.flipCell (s : State) (c : Nat) : SameButVFAndCells s (s.flipCell c) := by
  refine ⟨fun r _ => by simp, ?_⟩
  unfold State.flipCell
  split <;> rfl

/-- One set bit writes `VF` and a cell. -/
theorem drawBit_frame (x y : RegIdx) (row col : Nat) (s : State) : SameButVFAndCells s (drawBit x y row col s) := by
  unfold drawBit
  simp only
  split
  · exact (SameButVFAndCells.setVF s _).trans (SameButVFAndCells.flipCell _ _)
  · exact SameButVFAndCells.flipCell _ _

/-- A relation that is reflexive and transitive and holds across each step of a fold holds across the fold. -/
theorem foldl_frame {α : Type} (f : State → α → State) (hf : ∀ s a, SameButVFAndCells s (f s a)) (l : List α) (s : State) :
    SameButVFAndCells s (l.foldl f s) := by
  induction l generalizing s with
  | nil => exact .refl s
  | cons a l ih => exact (hf s a).trans (ih (f s a))

theorem drawRow_frame (x y : RegIdx) (row : Nat) (b : Byte) (s : State) :
    SameButVFAndCells s (drawRow x y row b s) := by
  refine foldl_frame _ (fun t col => ?_) _ _
  split
  · exact drawBit_frame _ _ _ _ _
  · exact .refl _

/-- A whole sprite writes `VF` and cells. -/
theorem drawRows_frame (x y : RegIdx) (n : Nat) (s : State) : SameButVFAndCells s (drawRows x y n s) :=
  foldl_frame _ (fun _ _ => drawRow_frame _ _ _ _ _) _ _

/-- The target cell of a bit is a cell of the screen. -/
theorem targetCell_lt (x y : RegIdx) (row col : Nat) (s : State) : targetCell x y row col s < 2048 :=
  cellOf_lt _ _

/-- The screen after one set bit: its target cell flipped, every other cell as before. -/
theorem drawBit_cell (x y : RegIdx) (row col q : Nat) (s : State) :
    (drawBit x y row col s).cell q = if q = targetCell x y row col s then !s.cell q else s.cell q := by
  unfold drawBit
  simp only
  rw [State.flipCell_cell _ (targetCell_lt _ _ _ _ _)]
  by_cases hc : s.cell (targetCell x y row col s) = true <;> simp [hc]

/-- `VF` after one set bit: 1 on a collision, else as before. -/
theorem drawBit_vf (x y : RegIdx) (row col : Nat) (s : State) :
    (drawBit x y row col s).getV vf = if s.cell (targetCell x y row col s) then 1#8 else s.getV vf := by
  unfold drawBit
  simp only [State.flipCell_getV]
  split <;> simp [flagOf]

end Sys2Proof.Machine
end

