-- ==== Sys2Proof/Laws/Step.lean ====
section
/-! SUPPORT. Everything a step, a fetch and a host operation can do, said once. -/

namespace Sys2Proof.Machine

/-- Every state a `Result` of a taken fault answers. -/
@[simp] theorem raise_eq (f : Fault) (n : Nat) (s : State) : raise f n s = .next (s.latch f n) := rfl

/-- What `step` does, case by case: a halted core stays as it is, a `pc` beyond memory faults, a word that matches no
pattern faults, and any other word runs (R90). -/
theorem step_cases {s t : State} (h : step s = .next t) :
    (s.err ≠ none ∧ t = s) ∨
    (s.err = none ∧ 0x0FFE < s.pc.toNat ∧ t = s.latch .fetchOutOfRange s.pc.toNat) ∨
    (s.err = none ∧ s.pc.toNat ≤ 0x0FFE ∧ (∃ e, decodeWord s.fetchWord = .error e) ∧
      t = s.advance.latch .unknownOpcode s.fetchWord.toNat) ∨
    (s.err = none ∧ s.pc.toNat ≤ 0x0FFE ∧ ∃ i, decodeWord s.fetchWord = .ok i ∧ exec i s.advance = .next t) := by
  unfold step at h
  split at h
  · rename_i he
    cases h
    exact .inl ⟨by intro hn; simp [hn] at he, rfl⟩
  · rename_i he
    have he : s.err = none := by simpa using he
    split at h
    · rename_i hf
      have hf : s.pc.toNat ≤ 0x0FFE := by simpa [State.fetchable] using hf
      split at h
      · exact .inr (.inr (.inr ⟨he, hf, _, ‹_›, h⟩))
      · cases h
        exact .inr (.inr (.inl ⟨he, hf, ⟨_, ‹_›⟩, rfl⟩))
    · rename_i hf
      cases h
      exact .inr (.inl ⟨he, by simpa [State.fetchable] using hf, rfl⟩)

theorem step_halted {s : State} (h : s.err ≠ none) : step s = .next s := by
  unfold step
  rw [if_pos (by cases hs : s.err <;> simp_all)]

theorem step_running {s : State} {i : Instr} (he : s.err = none) (hf : s.pc.toNat ≤ 0x0FFE)
    (hi : decodeWord s.fetchWord = .ok i) : step s = exec i s.advance := by
  unfold step
  rw [if_neg (by simp [he]), if_pos (by simpa [State.fetchable] using hf), hi]

theorem step_unknown {s : State} {e : DecodeReject} (he : s.err = none) (hf : s.pc.toNat ≤ 0x0FFE)
    (hi : decodeWord s.fetchWord = .error e) :
    step s = .next (s.advance.latch .unknownOpcode s.fetchWord.toNat) := by
  unfold step
  rw [if_neg (by simp [he]), if_pos (by simpa [State.fetchable] using hf), hi]
  rfl

theorem step_beyond {s : State} (he : s.err = none) (hf : 0x0FFE < s.pc.toNat) :
    step s = .next (s.latch .fetchOutOfRange s.pc.toNat) := by
  unfold step
  rw [if_neg (by simp [he]), if_neg (by simpa [State.fetchable] using hf)]
  rfl

/-- The fetched word as a number (R53). -/
theorem State.toNat_fetchWord (s : State) :
    s.fetchWord.toNat = (s.readByte s.pc.toNat).toNat * 256 + (s.readByte (s.pc.toNat + 1)).toNat :=
  toNat_wordOfBytes _ _

/-- Right after the prologue of a step the last word is the word it fetched (R92). -/
@[simp] theorem State.lastWord_advance (s : State) : s.advance.lastWord = s.fetchWord := by
  have h : s.pc + 2#16 - 2#16 = s.pc := by rw [BitVec.add_sub_cancel]
  unfold State.lastWord State.fetchWord
  simp [h]

/-- Latching a fault moves neither `pc` nor memory (R200). -/
@[simp] theorem State.lastWord_latch (s : State) (f : Fault) (n : Nat) : (s.latch f n).lastWord = s.lastWord := rfl

/-- A word refused is refused by name, with the word itself (R76). -/
theorem decodeWord_error {op : Word} {e : DecodeReject} (h : decodeWord op = .error e) : e = .unknownOpcode op := by
  unfold decodeWord decode0 decode8 decodeE decodeF at h
  simp only at h
  repeat' split at h
  all_goals first | cases h; rfl | cases h

/-- The word `withFetchWord` places is the word the next step fetches. -/
theorem State.fetchWord_withFetchWord (s : State) (nbits w : Nat) (hm : s.mem.wf = true) :
    (s.withFetchWord nbits w).fetchWord = tableWord nbits w := by
  have hpc : (s.withFetchWord nbits w).pc.toNat + 1 < 4096 := by
    show (if s.fetchable then s.pc else BitVec.ofNat 16 Config.progBase).toNat + 1 < 4096
    by_cases h : s.pc.toNat ≤ 0x0FFE
    · rw [if_pos (by simpa [State.fetchable] using h)]
      show s.pc.toNat + 1 < 4096
      omega
    · rw [if_neg (by simpa [State.fetchable] using h)]
      decide
  have h0 := Memory.read_writeBytes_at (tableBytes nbits w) 0 (by simp [tableBytes]) hm
    (a := (s.withFetchWord nbits w).pc.toNat) (by simp only [tableBytes, List.length]; omega)
  have h1 := Memory.read_writeBytes_at (tableBytes nbits w) 1 (by simp [tableBytes]) hm
    (a := (s.withFetchWord nbits w).pc.toNat) (by simp only [tableBytes, List.length]; omega)
  unfold State.fetchWord State.readByte
  rw [show (s.withFetchWord nbits w).mem =
    Memory.writeBytes s.mem (s.withFetchWord nbits w).pc.toNat (tableBytes nbits w) from rfl]
  rw [h1]
  rw [Nat.add_zero] at h0
  rw [h0]
  exact wordOfBytes_split _

/-- Operations in a row, one at a time. -/
theorem performAll_cons {o : Operation} {os : List Operation} {s t : State} (h : perform o s = .next t) :
    performAll (o :: os) s = performAll os t := by
  simp [performAll, h]

/-- A tick of the nominal schedule is `STEPS_PER_TICK` steps and one tick (R231). -/
@[simp] theorem length_tickPeriod : tickPeriod.length = Config.stepsPerTick + 1 := by
  simp [tickPeriod]

/-- A property that every operation keeps holds at the end of every execution from a state that has it (R10). -/
theorem performAll_keeps {P : State → Prop} (hstep : ∀ o s t, P s → perform o s = .next t → P t)
    {os : List Operation} {s t : State} (hs : P s) (h : performAll os s = .next t) : P t := by
  induction os generalizing s with
  | nil => cases h; exact hs
  | cons o os ih =>
    unfold performAll at h
    split at h
    · exact ih (hstep _ _ _ hs ‹_›) h
    · cases h
    · cases h

end Sys2Proof.Machine
end

