-- ==== Sys2Proof/Laws/Exec.lean ====
section
/-! SUPPORT. The instructions that end in one of several ways, case by case: the branch taken and the state it leaves.
The other meanings are one equation, true by `rfl`. -/

namespace Sys2Proof.Machine

/-! ### Instructions over a data range (R148 to R150, R161, R195) -/

theorem exec_ldB_fits {x : RegIdx} {s : State} (h : s.I.toNat + 2 ≤ 0xFFF) :
    exec (.ldB x) s = .next (s.writeBytes (dataAddr s 0) (bcdDigits (s.getV x))) :=
  withDataRange_fits (len := 3) (effect := fun t => t.writeBytes (dataAddr t 0) (bcdDigits (t.getV x))) (.inr (by omega))

theorem exec_ldB_faults {x : RegIdx} {s : State} (h : 0xFFF < s.I.toNat + 2) :
    exec (.ldB x) s = .next (s.latch .dataAddressOutOfRange (max s.I.toNat 4096)) :=
  withDataRange_faults (len := 3) (effect := fun t => t.writeBytes (dataAddr t 0) (bcdDigits (t.getV x))) (by omega)
    (by omega)

theorem exec_storeRegs_fits {x : RegIdx} {s : State} (h : s.I.toNat + x.val ≤ 0xFFF) :
    exec (.storeRegs x) s = .next (s.writeBytes (dataAddr s 0) ((regsUpTo x).map s.getV)) :=
  withDataRange_fits (len := x.val + 1) (effect := fun t => t.writeBytes (dataAddr t 0) ((regsUpTo x).map t.getV))
    (.inr (by omega))

theorem exec_storeRegs_faults {x : RegIdx} {s : State} (h : 0xFFF < s.I.toNat + x.val) :
    exec (.storeRegs x) s = .next (s.latch .dataAddressOutOfRange (max s.I.toNat 4096)) :=
  withDataRange_faults (len := x.val + 1) (effect := fun t => t.writeBytes (dataAddr t 0) ((regsUpTo x).map t.getV))
    (by omega) (by omega)

theorem exec_loadRegs_fits {x : RegIdx} {s : State} (h : s.I.toNat + x.val ≤ 0xFFF) :
    exec (.loadRegs x) s = .next (loadRegList (regsUpTo x) s) :=
  withDataRange_fits (len := x.val + 1) (effect := loadRegList (regsUpTo x)) (.inr (by omega))

theorem exec_loadRegs_faults {x : RegIdx} {s : State} (h : 0xFFF < s.I.toNat + x.val) :
    exec (.loadRegs x) s = .next (s.latch .dataAddressOutOfRange (max s.I.toNat 4096)) :=
  withDataRange_faults (len := x.val + 1) (effect := loadRegList (regsUpTo x)) (by omega) (by omega)

theorem exec_drw_fits {x y : RegIdx} {n : Nibble} {s : State} (h : 0 < n.toNat → s.I.toNat + n.toNat - 1 ≤ 0xFFF) :
    exec (.drw x y n) s = .next ((drawRows x y n.toNat (s.setV vf 0#8)).setRedraw true) :=
  withDataRange_fits (len := n.toNat)
    (effect := fun t => (drawRows x y n.toNat (t.setV vf (flagOf false))).setRedraw true) (by omega)

theorem exec_drw_faults {x y : RegIdx} {n : Nibble} {s : State} (h0 : 0 < n.toNat)
    (h : 0xFFF < s.I.toNat + n.toNat - 1) :
    exec (.drw x y n) s = .next (s.latch .dataAddressOutOfRange (max s.I.toNat 4096)) :=
  withDataRange_faults (len := n.toNat)
    (effect := fun t => (drawRows x y n.toNat (t.setV vf (flagOf false))).setRedraw true) h0 (by omega)

/-! ### Stack instructions (R120, R123) -/

theorem exec_ret_pops {s : State} {k : Fin 12} (h : s.sp.val = k.val + 1) :
    exec .ret s = .next { s with sp := ⟨k.val, Nat.lt_succ_of_lt k.isLt⟩, pc := s.slot k } := by
  cases hp : s.pop with
  | none => rw [State.pop_eq_none] at hp; omega
  | some q =>
    obtain ⟨w, t⟩ := q
    obtain ⟨j, hj, hw, ht⟩ := State.pop_eq_some hp
    have : j = k := Fin.ext (by omega)
    subst this hw ht
    show execRet s = _
    unfold execRet
    rw [hp]
    rfl

theorem exec_ret_empty {s : State} (h : s.sp.val = 0) : exec .ret s = .next (s.latch .stackUnderflow 0x00EE) := by
  show execRet s = _
  unfold execRet
  rw [State.pop_eq_none.2 h]
  rfl

theorem exec_call_pushes {nnn : Imm12} {s : State} (h : s.sp.val < 12) :
    exec (.call nnn) s = .next { s with stack := s.stack.set s.sp.val s.pc h, sp := ⟨s.sp.val + 1, Nat.succ_lt_succ h⟩,
                                        pc := wordOfImm nnn } := by
  cases hp : s.push s.pc with
  | none => rw [State.push_eq_none] at hp; omega
  | some t =>
    obtain ⟨_, ht⟩ := State.push_eq_some hp
    subst ht
    show execCall nnn s = _
    unfold execCall
    rw [hp]
    rfl

theorem exec_call_full {nnn : Imm12} {s : State} (h : s.sp.val = 12) :
    exec (.call nnn) s = .next (s.latch .stackOverflow (0x2000 + nnn.toNat)) := by
  show execCall nnn s = _
  unfold execCall
  rw [State.push_eq_none.2 h]
  show Host.Outcome.next (s.latch .stackOverflow (packNNN 0x2#4 nnn).toNat) = _
  rw [toNat_packNNN]
  rfl

/-! ### Key instructions (R162 to R164) -/

theorem keyOfByte_eq_some {b : Byte} {k : KeyIdx} (h : b.toNat = k.val) : keyOfByte b = some k := by
  simp [keyOfByte, h, Config.numKeys]

theorem keyOfByte_eq_none {b : Byte} (h : 15 < b.toNat) : keyOfByte b = none := by
  simp [keyOfByte, Config.numKeys]
  omega

theorem exec_skp_key {x : RegIdx} {k : KeyIdx} {s : State} (h : (s.getV x).toNat = k.val) :
    exec (.skp x) s = .next (s.skipIf (s.keyIsDown k)) := by
  show execSkp x s = _
  unfold execSkp
  rw [keyOfByte_eq_some h]

theorem exec_sknp_key {x : RegIdx} {k : KeyIdx} {s : State} (h : (s.getV x).toNat = k.val) :
    exec (.sknp x) s = .next (s.skipIf (!s.keyIsDown k)) := by
  show execSknp x s = _
  unfold execSknp
  rw [keyOfByte_eq_some h]

theorem exec_skp_faults {x : RegIdx} {s : State} (h : 15 < (s.getV x).toNat) :
    exec (.skp x) s = .next (s.latch .keyIndexOutOfRange (s.getV x).toNat) := by
  show execSkp x s = _
  unfold execSkp
  rw [keyOfByte_eq_none h]
  rfl

theorem exec_sknp_faults {x : RegIdx} {s : State} (h : 15 < (s.getV x).toNat) :
    exec (.sknp x) s = .next (s.latch .keyIndexOutOfRange (s.getV x).toNat) := by
  show execSknp x s = _
  unfold execSknp
  rw [keyOfByte_eq_none h]
  rfl

theorem exec_ldVxK_key {x : RegIdx} {k : KeyIdx} {s : State} (h : s.scanKeys = some k) :
    exec (.ldVxK x) s = .next (s.setV x (byteOfKey k)) := by
  show execLdVxK x s = _
  unfold execLdVxK
  rw [h]

theorem exec_ldVxK_none {x : RegIdx} {s : State} (h : s.scanKeys = none) : exec (.ldVxK x) s = .next s.rewind := by
  show execLdVxK x s = _
  unfold execLdVxK
  rw [h]

/-! ### Every way an instruction can end, read backwards from its next state -/

theorem exec_ret_cases {s t : State} (h : exec .ret s = .next t) :
    (s.sp.val = 0 ∧ t = s.latch .stackUnderflow 0x00EE) ∨
    ∃ k : Fin 12, s.sp.val = k.val + 1 ∧ t = { s with sp := ⟨k.val, Nat.lt_succ_of_lt k.isLt⟩, pc := s.slot k } := by
  by_cases hs : s.sp.val = 0
  · rw [exec_ret_empty hs] at h
    cases h
    exact .inl ⟨hs, rfl⟩
  · have hk : s.sp.val = (⟨s.sp.val - 1, by omega⟩ : Fin 12).val + 1 := by
      show s.sp.val = s.sp.val - 1 + 1
      omega
    rw [exec_ret_pops hk] at h
    cases h
    exact .inr ⟨_, hk, rfl⟩

theorem exec_call_cases {nnn : Imm12} {s t : State} (h : exec (.call nnn) s = .next t) :
    (s.sp.val = 12 ∧ t = s.latch .stackOverflow (0x2000 + nnn.toNat)) ∨
    ∃ hk : s.sp.val < 12, t = { s with stack := s.stack.set s.sp.val s.pc hk, sp := ⟨s.sp.val + 1, Nat.succ_lt_succ hk⟩,
                                       pc := wordOfImm nnn } := by
  by_cases hs : s.sp.val = 12
  · rw [exec_call_full hs] at h
    cases h
    exact .inl ⟨hs, rfl⟩
  · have hk : s.sp.val < 12 := by omega
    rw [exec_call_pushes hk] at h
    cases h
    exact .inr ⟨hk, rfl⟩

theorem exec_ldB_cases {x : RegIdx} {s t : State} (h : exec (.ldB x) s = .next t) :
    (0xFFF < s.I.toNat + 2 ∧ t = s.latch .dataAddressOutOfRange (max s.I.toNat 4096)) ∨
    (s.I.toNat + 2 ≤ 0xFFF ∧ t = s.writeBytes (dataAddr s 0) (bcdDigits (s.getV x))) := by
  by_cases hs : s.I.toNat + 2 ≤ 0xFFF
  · rw [exec_ldB_fits hs] at h
    cases h
    exact .inr ⟨hs, rfl⟩
  · rw [exec_ldB_faults (by omega)] at h
    cases h
    exact .inl ⟨by omega, rfl⟩

theorem exec_storeRegs_cases {x : RegIdx} {s t : State} (h : exec (.storeRegs x) s = .next t) :
    (0xFFF < s.I.toNat + x.val ∧ t = s.latch .dataAddressOutOfRange (max s.I.toNat 4096)) ∨
    (s.I.toNat + x.val ≤ 0xFFF ∧ t = s.writeBytes (dataAddr s 0) ((regsUpTo x).map s.getV)) := by
  by_cases hs : s.I.toNat + x.val ≤ 0xFFF
  · rw [exec_storeRegs_fits hs] at h
    cases h
    exact .inr ⟨hs, rfl⟩
  · rw [exec_storeRegs_faults (by omega)] at h
    cases h
    exact .inl ⟨by omega, rfl⟩

theorem exec_loadRegs_cases {x : RegIdx} {s t : State} (h : exec (.loadRegs x) s = .next t) :
    (0xFFF < s.I.toNat + x.val ∧ t = s.latch .dataAddressOutOfRange (max s.I.toNat 4096)) ∨
    (s.I.toNat + x.val ≤ 0xFFF ∧ t = loadRegList (regsUpTo x) s) := by
  by_cases hs : s.I.toNat + x.val ≤ 0xFFF
  · rw [exec_loadRegs_fits hs] at h
    cases h
    exact .inr ⟨hs, rfl⟩
  · rw [exec_loadRegs_faults (by omega)] at h
    cases h
    exact .inl ⟨by omega, rfl⟩

theorem exec_drw_cases {x y : RegIdx} {n : Nibble} {s t : State} (h : exec (.drw x y n) s = .next t) :
    (0 < n.toNat ∧ 0xFFF < s.I.toNat + n.toNat - 1 ∧ t = s.latch .dataAddressOutOfRange (max s.I.toNat 4096)) ∨
    ((0 < n.toNat → s.I.toNat + n.toNat - 1 ≤ 0xFFF) ∧ t = (drawRows x y n.toNat (s.setV vf 0#8)).setRedraw true) := by
  by_cases hs : 0 < n.toNat → s.I.toNat + n.toNat - 1 ≤ 0xFFF
  · rw [exec_drw_fits hs] at h
    cases h
    exact .inr ⟨hs, rfl⟩
  · rw [Classical.not_imp] at hs
    rw [exec_drw_faults hs.1 (by omega)] at h
    cases h
    exact .inl ⟨hs.1, by omega, rfl⟩

theorem exec_skp_cases {x : RegIdx} {s t : State} (h : exec (.skp x) s = .next t) :
    (15 < (s.getV x).toNat ∧ t = s.latch .keyIndexOutOfRange (s.getV x).toNat) ∨
    ∃ k : KeyIdx, (s.getV x).toNat = k.val ∧ t = s.skipIf (s.keyIsDown k) := by
  by_cases hs : 15 < (s.getV x).toNat
  · rw [exec_skp_faults hs] at h
    cases h
    exact .inl ⟨hs, rfl⟩
  · rw [exec_skp_key (k := ⟨(s.getV x).toNat, by omega⟩) rfl] at h
    cases h
    exact .inr ⟨_, rfl, rfl⟩

theorem exec_sknp_cases {x : RegIdx} {s t : State} (h : exec (.sknp x) s = .next t) :
    (15 < (s.getV x).toNat ∧ t = s.latch .keyIndexOutOfRange (s.getV x).toNat) ∨
    ∃ k : KeyIdx, (s.getV x).toNat = k.val ∧ t = s.skipIf (!s.keyIsDown k) := by
  by_cases hs : 15 < (s.getV x).toNat
  · rw [exec_sknp_faults hs] at h
    cases h
    exact .inl ⟨hs, rfl⟩
  · rw [exec_sknp_key (k := ⟨(s.getV x).toNat, by omega⟩) rfl] at h
    cases h
    exact .inr ⟨_, rfl, rfl⟩

theorem exec_ldVxK_cases {x : RegIdx} {s t : State} (h : exec (.ldVxK x) s = .next t) :
    (s.scanKeys = none ∧ t = s.rewind) ∨ ∃ k, s.scanKeys = some k ∧ t = s.setV x (byteOfKey k) := by
  cases hs : s.scanKeys with
  | none =>
    rw [exec_ldVxK_none hs] at h
    cases h
    exact .inl ⟨rfl, rfl⟩
  | some k =>
    rw [exec_ldVxK_key hs] at h
    cases h
    exact .inr ⟨k, rfl, rfl⟩

end Sys2Proof.Machine
end

