-- ==== Sys2Proof/Laws/PerInstr.lean ====
section
/-! SUPPORT. Laws stated of every instruction, one lemma for each constructor.

`MeetsItsRow`: the encoding of an instruction meets the mask and match of its own row of R75. -/

namespace Sys2Proof.Laws.MeetsItsRow

/-- The encoding meets the instruction's own row (R74, R75). -/
def Statement (i : Instr) : Prop := (rowOf i).fits (encode i) = true

/-- A nibble under the full mask is itself. -/
theorem nibble_and_mask (t : Nibble) : t &&& 0xF#4 = t := BitVec.and_allOnes

/-- A word of format `NNN` under the mask of its top nibble. -/
theorem fits_packNNN (m : String) (t : Nibble) (nnn : Imm12) :
    OpcodeRow.fits ⟨m, packNNN t 0, 0xF000⟩ (packNNN t nnn) = true := by
  refine beq_iff_eq.2 ?_
  show (t ++ nnn) &&& (0xF#4 ++ 0#12) = t ++ 0#12
  rw [BitVec.and_append, nibble_and_mask, BitVec.and_zero]

/-- A word of format `XNN` under the mask of its top nibble. -/
theorem fits_packXNN (m : String) (t : Nibble) (x : RegIdx) (nn : Byte) :
    OpcodeRow.fits ⟨m, packXNN t 0 0, 0xF000⟩ (packXNN t x nn) = true := by
  refine beq_iff_eq.2 ?_
  show ((t ++ nibOf x) ++ nn) &&& ((0xF#4 ++ 0#4) ++ 0#8) = (t ++ 0#4) ++ 0#8
  rw [BitVec.and_append, BitVec.and_append, nibble_and_mask, BitVec.and_zero, BitVec.and_zero]

/-- A word of format `XFF` under the mask of its top nibble and its function byte. -/
theorem fits_packXFF (m : String) (t : Nibble) (x : RegIdx) (nn : Byte) :
    OpcodeRow.fits ⟨m, packXNN t 0 nn, 0xF0FF⟩ (packXNN t x nn) = true := by
  refine beq_iff_eq.2 ?_
  show ((t ++ nibOf x) ++ nn) &&& ((0xF#4 ++ 0#4) ++ BitVec.allOnes 8) = (t ++ 0#4) ++ nn
  rw [BitVec.and_append, BitVec.and_append, nibble_and_mask, BitVec.and_zero, BitVec.and_allOnes]

/-- A word of format `XYN` under the mask of its top nibble. -/
theorem fits_packXYN (m : String) (t : Nibble) (x y : RegIdx) (n : Nibble) :
    OpcodeRow.fits ⟨m, packXYN t 0 0 0, 0xF000⟩ (packXYN t x y n) = true := by
  refine beq_iff_eq.2 ?_
  show (((t ++ nibOf x) ++ nibOf y) ++ n) &&& (((0xF#4 ++ 0#4) ++ 0#4) ++ 0#4) = ((t ++ 0#4) ++ 0#4) ++ 0#4
  rw [BitVec.and_append, BitVec.and_append, BitVec.and_append, nibble_and_mask, BitVec.and_zero, BitVec.and_zero,
    BitVec.and_zero]

/-- A word of format `XYF` under the mask of its top and function nibbles. -/
theorem fits_packXYF (m : String) (t : Nibble) (x y : RegIdx) (n : Nibble) :
    OpcodeRow.fits ⟨m, packXYN t 0 0 n, 0xF00F⟩ (packXYN t x y n) = true := by
  refine beq_iff_eq.2 ?_
  show (((t ++ nibOf x) ++ nibOf y) ++ n) &&& (((0xF#4 ++ 0#4) ++ 0#4) ++ 0xF#4) = ((t ++ 0#4) ++ 0#4) ++ n
  rw [BitVec.and_append, BitVec.and_append, BitVec.and_append, nibble_and_mask, nibble_and_mask, BitVec.and_zero,
    BitVec.and_zero]

theorem cls : Statement .cls := rfl
theorem ret : Statement .ret := rfl
theorem sys (nnn : Imm12) : Statement (.sys nnn) := fits_packNNN _ _ _
theorem jp (nnn : Imm12) : Statement (.jp nnn) := fits_packNNN _ _ _
theorem call (nnn : Imm12) : Statement (.call nnn) := fits_packNNN _ _ _
theorem seImm (x : RegIdx) (nn : Byte) : Statement (.seImm x nn) := fits_packXNN _ _ _ _
theorem sneImm (x : RegIdx) (nn : Byte) : Statement (.sneImm x nn) := fits_packXNN _ _ _ _
theorem seReg (x y : RegIdx) : Statement (.seReg x y) := fits_packXYF _ _ _ _ _
theorem ldImm (x : RegIdx) (nn : Byte) : Statement (.ldImm x nn) := fits_packXNN _ _ _ _
theorem addImm (x : RegIdx) (nn : Byte) : Statement (.addImm x nn) := fits_packXNN _ _ _ _
theorem ldReg (x y : RegIdx) : Statement (.ldReg x y) := fits_packXYF _ _ _ _ _
theorem orReg (x y : RegIdx) : Statement (.orReg x y) := fits_packXYF _ _ _ _ _
theorem andReg (x y : RegIdx) : Statement (.andReg x y) := fits_packXYF _ _ _ _ _
theorem xorReg (x y : RegIdx) : Statement (.xorReg x y) := fits_packXYF _ _ _ _ _
theorem addReg (x y : RegIdx) : Statement (.addReg x y) := fits_packXYF _ _ _ _ _
theorem subReg (x y : RegIdx) : Statement (.subReg x y) := fits_packXYF _ _ _ _ _
theorem shr (x y : RegIdx) : Statement (.shr x y) := fits_packXYF _ _ _ _ _
theorem subnReg (x y : RegIdx) : Statement (.subnReg x y) := fits_packXYF _ _ _ _ _
theorem shl (x y : RegIdx) : Statement (.shl x y) := fits_packXYF _ _ _ _ _
theorem sneReg (x y : RegIdx) : Statement (.sneReg x y) := fits_packXYF _ _ _ _ _
theorem ldI (nnn : Imm12) : Statement (.ldI nnn) := fits_packNNN _ _ _
theorem jpV0 (nnn : Imm12) : Statement (.jpV0 nnn) := fits_packNNN _ _ _
theorem rnd (x : RegIdx) (nn : Byte) : Statement (.rnd x nn) := fits_packXNN _ _ _ _
theorem drw (x y : RegIdx) (n : Nibble) : Statement (.drw x y n) := fits_packXYN _ _ _ _ _
theorem skp (x : RegIdx) : Statement (.skp x) := fits_packXFF _ _ _ _
theorem sknp (x : RegIdx) : Statement (.sknp x) := fits_packXFF _ _ _ _
theorem ldVxDT (x : RegIdx) : Statement (.ldVxDT x) := fits_packXFF _ _ _ _
theorem ldVxK (x : RegIdx) : Statement (.ldVxK x) := fits_packXFF _ _ _ _
theorem ldDTVx (x : RegIdx) : Statement (.ldDTVx x) := fits_packXFF _ _ _ _
theorem ldSTVx (x : RegIdx) : Statement (.ldSTVx x) := fits_packXFF _ _ _ _
theorem addI (x : RegIdx) : Statement (.addI x) := fits_packXFF _ _ _ _
theorem ldF (x : RegIdx) : Statement (.ldF x) := fits_packXFF _ _ _ _
theorem ldB (x : RegIdx) : Statement (.ldB x) := fits_packXFF _ _ _ _
theorem storeRegs (x : RegIdx) : Statement (.storeRegs x) := fits_packXFF _ _ _ _
theorem loadRegs (x : RegIdx) : Statement (.loadRegs x) := fits_packXFF _ _ _ _

end Sys2Proof.Laws.MeetsItsRow
end

