-- ==== Sys2Proof/Tests/Slice0.lean ====
section
/-! SUPPORT. Tests and witnesses. Every expected value is taken from the spec: the words from the encodings of
`30_encoding.md` R75, the results from the vectors of `95_test_vectors.md`, whose ids the names carry. None is taken
from the model's own answers. -/

namespace Sys2Proof.Tests

open Sys2Proof.Machine

/-! ### Helpers -/

/-- The next state of a result, if it is one. -/
def nextOf (r : Result) : Option State :=
  match r with
  | .next t => some t
  | .fault _ => none
  | .refused _ => none

/-- The state after reset, changed by `f`, with the word `w` where the next step fetches. -/
def before (w : Word) (f : State → State) : State := (f State.reset).withFetchWord 16 w.toNat

/-- The state one step later. -/
def after (w : Word) (f : State → State) : Option State := nextOf (step (before w f))

/-- What a fault leaves: its kind, its information and `pc`. -/
def faultOf (t : State) : Option Fault × Word × Word := (t.err, t.errInfo, t.pc)

/-- The state after reset with `sp` entries on the stack, slot `k` holding `0x300 + k`. -/
def withDepth (sp : Fin 13) (s : State) : State :=
  { s with sp := sp, stack := #v[0x300, 0x301, 0x302, 0x303, 0x304, 0x305, 0x306, 0x307, 0x308, 0x309, 0x30A, 0x30B] }

/-! ### The constants of R4, with the values its table gives and the relations it derives them by -/

theorem test_R4_values :
    (Config.memSize, Config.addrMax, Config.fetchMax, Config.progBase, Config.progMaxLen) = (4096, 0xFFF, 0x0FFE, 0x200, 3584) ∧
    (Config.fontBase, Config.fontLen, Config.glyphStride, Config.numV, Config.numKeys) = (0, 80, 5, 16, 16) ∧
    (Config.xlen, Config.iWidth, Config.pcWidth, Config.ilen, Config.pcStep) = (8, 16, 16, 16, 2) ∧
    (Config.stackDepth, Config.stackWidth, Config.fbW, Config.fbH, Config.fbCells, Config.timerHz) = (12, 16, 64, 32, 2048, 60) := by
  decide
theorem test_R4_relations :
    Config.addrMax = Config.memSize - 1 ∧ Config.progMaxLen = Config.memSize - Config.progBase ∧
    Config.fbCells = Config.fbW * Config.fbH ∧ Config.fontLen = 16 * Config.glyphStride ∧
    Config.ilen = 8 * Config.pcStep ∧ Config.fetchMax + Config.pcStep = Config.memSize ∧
    Config.stackWidth = Config.pcWidth := by decide

/-! ### WellFormed: the one check, refused on both ill-formed spellings (R74, R77) -/

theorem test_wellFormed_refuses_sys_0E0 : (Instr.sys 0x0E0).wellFormed = false := by decide
theorem test_wellFormed_refuses_sys_0EE : (Instr.sys 0x0EE).wellFormed = false := by decide
theorem test_wellFormed_takes_the_neighbours :
    [0x000, 0x0DF, 0x0E1, 0x0EF, 0x1E0, 0xFFF].all (fun nnn => (Instr.sys nnn).wellFormed) = true := by decide

/-! ### Decoding: a word of every row, written out from the encodings of R75 -/

theorem test_decode_cls : decodeWord 0b0000000011100000#16 = .ok (.cls) := by decide
theorem test_decode_ret : decodeWord 0b0000000011101110#16 = .ok (.ret) := by decide
theorem test_decode_sys : decodeWord 0b0000000100100011#16 = .ok (.sys 0x123) := by decide
theorem test_decode_jp : decodeWord 0b0001101010111100#16 = .ok (.jp 0xABC) := by decide
theorem test_decode_call : decodeWord 0b0010001101000101#16 = .ok (.call 0x345) := by decide
theorem test_decode_seImm : decodeWord 0b0011101001000010#16 = .ok (.seImm 10 0x42) := by decide
theorem test_decode_sneImm : decodeWord 0b0100101001000010#16 = .ok (.sneImm 10 0x42) := by decide
theorem test_decode_seReg : decodeWord 0b0101101010110000#16 = .ok (.seReg 10 11) := by decide
theorem test_decode_ldImm : decodeWord 0b0110101001111111#16 = .ok (.ldImm 10 0x7F) := by decide
theorem test_decode_addImm : decodeWord 0b0111101000001010#16 = .ok (.addImm 10 0x0A) := by decide
theorem test_decode_ldReg : decodeWord 0b1000101010110000#16 = .ok (.ldReg 10 11) := by decide
theorem test_decode_orReg : decodeWord 0b1000000100100001#16 = .ok (.orReg 1 2) := by decide
theorem test_decode_andReg : decodeWord 0b1000000100100010#16 = .ok (.andReg 1 2) := by decide
theorem test_decode_xorReg : decodeWord 0b1000000100100011#16 = .ok (.xorReg 1 2) := by decide
theorem test_decode_addReg : decodeWord 0b1000000100100100#16 = .ok (.addReg 1 2) := by decide
theorem test_decode_subReg : decodeWord 0b1000000100100101#16 = .ok (.subReg 1 2) := by decide
theorem test_decode_shr : decodeWord 0b1000000100100110#16 = .ok (.shr 1 2) := by decide
theorem test_decode_subnReg : decodeWord 0b1000000100100111#16 = .ok (.subnReg 1 2) := by decide
theorem test_decode_shl : decodeWord 0b1000000100101110#16 = .ok (.shl 1 2) := by decide
theorem test_decode_sneReg : decodeWord 0b1001101010110000#16 = .ok (.sneReg 10 11) := by decide
theorem test_decode_ldI : decodeWord 0b1010000100100011#16 = .ok (.ldI 0x123) := by decide
theorem test_decode_jpV0 : decodeWord 0b1011001100000000#16 = .ok (.jpV0 0x300) := by decide
theorem test_decode_rnd : decodeWord 0b1100000100001111#16 = .ok (.rnd 1 0x0F) := by decide
theorem test_decode_drw : decodeWord 0b1101000100100101#16 = .ok (.drw 1 2 5) := by decide
theorem test_decode_skp : decodeWord 0b1110101010011110#16 = .ok (.skp 10) := by decide
theorem test_decode_sknp : decodeWord 0b1110101010100001#16 = .ok (.sknp 10) := by decide
theorem test_decode_ldVxDT : decodeWord 0b1111101000000111#16 = .ok (.ldVxDT 10) := by decide
theorem test_decode_ldVxK : decodeWord 0b1111001100001010#16 = .ok (.ldVxK 3) := by decide
theorem test_decode_ldDTVx : decodeWord 0b1111101000010101#16 = .ok (.ldDTVx 10) := by decide
theorem test_decode_ldSTVx : decodeWord 0b1111101000011000#16 = .ok (.ldSTVx 10) := by decide
theorem test_decode_addI : decodeWord 0b1111101000011110#16 = .ok (.addI 10) := by decide
theorem test_decode_ldF : decodeWord 0b1111101000101001#16 = .ok (.ldF 10) := by decide
theorem test_decode_ldB : decodeWord 0b1111101000110011#16 = .ok (.ldB 10) := by decide
theorem test_decode_storeRegs : decodeWord 0b1111001101010101#16 = .ok (.storeRegs 3) := by decide
theorem test_decode_loadRegs : decodeWord 0b1111001101100101#16 = .ok (.loadRegs 3) := by decide

/-- F11: the illegal words. -/
theorem test_decode_refuses_F11 :
    [0x5AB1#16, 0x5ABF#16, 0x9AB1#16, 0x8AB8#16, 0x8AB9#16, 0x8ABA#16, 0x8ABB#16, 0x8ABC#16, 0x8ABD#16, 0x8ABF#16, 0xE000#16,
      0xEA9F#16, 0xEAA0#16, 0xEA9D#16, 0xF000#16, 0xFA00#16, 0xFA08#16, 0xFA1F#16, 0xFA30#16, 0xFA75#16, 0xFA85#16].all
      (fun w => decide (decodeWord w = .error (.unknownOpcode w))) = true := by decide

/-- F10: words next to `00E0` and `00EE` are `SYS`. -/
theorem test_decode_F10_sys :
    [0x123#12, 0x0E1#12, 0x0EF#12, 0x1E0#12, 0xFFF#12, 0x000#12].all
      (fun nnn => decide (decodeWord (nnn.zeroExtend 16) = .ok (.sys nnn))) = true := by decide

/-- F1, F2: the first byte is the more significant. -/
theorem test_decode_bytes_big_endian :
    decode [0x6A, 0x7F, 0x99] = .ok (.ldImm 10 0x7F, [0x99]) ∧ decode [0x7F, 0x6A] = .ok (.addImm 15 0x6A, []) := by decide

theorem test_decode_too_few_bytes : decode [0x6A] = .error (.truncated [0x6A]) ∧ decode [] = .error (.truncated []) := by
  decide

theorem test_decodeTableWord :
    decodeTableWord 16 0xD125 = some (.drw 1 2 5) ∧ decodeTableWord 16 0x00EE = some .ret ∧
    decodeTableWord 16 0x5001 = none := by decide

/-! ### The step (R90 to R97) -/

theorem test_step_F3_odd_pc :
    (nextOf (step ({ State.reset with pc := 0x201 }.writeBytes 0x201 [0x12, 0x34]))).map (·.pc) = some 0x234 := by decide
theorem test_step_F4_last_fetch :
    (after 0x6001 (fun s => { s with pc := 0x0FFE })).map (fun t => (t.getV 0, t.pc, t.err)) = some (1, 0x1000, none) := by decide
theorem test_step_F5_fetch_beyond_memory :
    (nextOf (step { State.reset with pc := 0x0FFF, redraw := true })).map (fun t => (faultOf t, t.redraw)) =
      some ((some .fetchOutOfRange, 0x0FFF, 0x0FFF), true) := by decide
theorem test_step_F6_skip_past_the_end :
    (after 0x3A42 (fun s => { s.setV 10 0x42 with pc := 0x0FFE })).map (·.pc) = some 0x1002 := by decide
theorem test_step_F7_clears_redraw : (after 0x6000 (fun s => s.setRedraw true)).map (·.redraw) = some false := by decide
theorem test_step_F8_halted :
    (nextOf (step { before 0x6A7F id with err := some .unknownOpcode, redraw := true })).map
      (fun t => (t.pc, t.getV 10, t.redraw, t.err)) = some (0x200, 0, true, some .unknownOpcode) := by decide
theorem test_step_F9_word_0000 : (after 0x0000 id).map faultOf = some (some .unsupportedOpcode, 0x0000, 0x202) := by decide
theorem test_step_P7_unknown :
    (after 0x5001 (fun s => s.setRedraw true)).map (fun t => (faultOf t, t.redraw)) =
      some ((some .unknownOpcode, 0x5001, 0x202), false) := by decide
theorem test_core_step : Sys2Proof.core.step (before 0x1ABC id) = step (before 0x1ABC id) := rfl

/-! ### Arithmetic and logic (vectors A1 to A46) -/

theorem test_A1_add_imm_wraps :
    (after 0x7A0A (fun s => ((s.setV 10 250).setV 15 7))).map (fun t => (t.getV 10, t.getV 15)) = some (4, 7) := by decide
theorem test_A2_add_imm_to_VF :
    (after 0x7F0A (fun s => (s.setV 15 250))).map (fun t => t.getV 15) = some 4 := by decide
theorem test_A5_or :
    (after 0x8121 (fun s => (((s.setV 1 0xF0).setV 2 0x0F).setV 15 5))).map (fun t => (t.getV 1, t.getV 15)) = some (0xFF, 5) := by decide
theorem test_A6_and :
    (after 0x8122 (fun s => ((s.setV 1 0xFC).setV 2 0x3F))).map (fun t => t.getV 1) = some 0x3C := by decide
theorem test_A7_xor :
    (after 0x8123 (fun s => ((s.setV 1 0xFF).setV 2 0x0F))).map (fun t => t.getV 1) = some 0xF0 := by decide
theorem test_A14_add_into_VF :
    (after 0x8F24 (fun s => ((s.setV 15 200).setV 2 100))).map (fun t => t.getV 15) = some 101 := by decide
theorem test_A16_add_VF :
    (after 0x82F4 (fun s => ((s.setV 2 100).setV 15 200))).map (fun t => (t.getV 2, t.getV 15)) = some (101, 1) := by decide
theorem test_A21_sub_equal :
    (after 0x8125 (fun s => (((s.setV 1 7).setV 2 7).setV 15 9))).map (fun t => (t.getV 1, t.getV 15)) = some (0, 0) := by decide
theorem test_A26_sub_VF :
    (after 0x82F5 (fun s => ((s.setV 2 10).setV 15 3))).map (fun t => (t.getV 2, t.getV 15)) = some (9, 1) := by decide
theorem test_A28_shr_ignores_y :
    (after 0x8126 (fun s => ((s.setV 1 3).setV 2 0x55))).map (fun t => (t.getV 1, t.getV 2, t.getV 15)) = some (1, 0x55, 1) := by decide
theorem test_A32_shr_VF :
    (after 0x8F26 (fun s => (s.setV 15 3))).map (fun t => t.getV 15) = some 0 := by decide
theorem test_A35_subn_wraps :
    (after 0x8127 (fun s => ((s.setV 1 10).setV 2 5))).map (fun t => (t.getV 1, t.getV 15)) = some (251, 0) := by decide
theorem test_A37_subn_into_VF :
    (after 0x8F27 (fun s => ((s.setV 15 3).setV 2 10))).map (fun t => t.getV 15) = some 9 := by decide
theorem test_A39_shl :
    (after 0x812E (fun s => (s.setV 1 0x81))).map (fun t => (t.getV 1, t.getV 15)) = some (0x02, 1) := by decide
theorem test_A42_shl_VF :
    (after 0x8F2E (fun s => (s.setV 15 0x81))).map (fun t => t.getV 15) = some 2 := by decide
/-- A44: whatever the draw is, it is masked; a draw of `0xA7` gives `0x07`. -/
theorem test_A44_rnd (h : Config.randomByte 0 = 0xA7) : (nextOf (exec (.rnd 1 0x0F) State.reset)).map (·.getV 1) = some 0x07 := by
  have hd : (nextOf (exec (.rnd 1 0x0F) State.reset)).map (·.getV 1) = some (Config.randomByte 0 &&& 0x0F) := rfl
  rw [hd, h]
  decide

/-! ### Control flow (vectors B1 to B23) -/

theorem test_B1_jp :
    (after 0x1ABC (fun s => s)).map (fun t => t.pc) = some 0xABC := by decide
theorem test_B6_call_last_slot :
    (after 0x2345 (fun s => withDepth 11 s)).map (fun t => (t.slot 11, t.slot 10, t.sp, t.pc)) = some (0x202, 0x30A, 12, 0x345) := by decide
theorem test_B7_call_overflow :
    (after 0x2345 (fun s => withDepth 12 s)).map (fun t => (faultOf t, t.sp, t.slot 11)) = some ((some .stackOverflow, 0x2345, 0x202), 12, 0x30B) := by decide
theorem test_B9_ret :
    (after 0x00EE (fun s => withDepth 3 s)).map (fun t => (t.pc, t.sp, t.slot 2)) = some (0x302, 2, 0x302) := by decide
theorem test_B10_ret_underflow :
    (after 0x00EE (fun s => s)).map (fun t => (faultOf t, t.sp)) = some ((some .stackUnderflow, 0x00EE, 0x202), 0) := by decide
theorem test_F10_sys :
    (after 0x0123 (fun s => s)).map (fun t => faultOf t) = some (some .unsupportedOpcode, 0x0123, 0x202) := by decide
theorem test_B11_se_imm :
    (after 0x3A42 (fun s => (s.setV 10 0x42))).map (fun t => t.pc) = some 0x204 := by decide
theorem test_B12_se_imm :
    (after 0x3A42 (fun s => (s.setV 10 0x43))).map (fun t => t.pc) = some 0x202 := by decide
theorem test_B13_sne_imm :
    (after 0x4A42 (fun s => (s.setV 10 0x42))).map (fun t => t.pc) = some 0x202 := by decide
theorem test_B14_sne_imm :
    (after 0x4A42 (fun s => (s.setV 10 0x43))).map (fun t => t.pc) = some 0x204 := by decide
theorem test_B15_se_reg :
    (after 0x5AB0 (fun s => ((s.setV 10 9).setV 11 9))).map (fun t => t.pc) = some 0x204 := by decide
theorem test_B16_se_reg :
    (after 0x5AB0 (fun s => ((s.setV 10 9).setV 11 8))).map (fun t => t.pc) = some 0x202 := by decide
theorem test_B18_sne_reg :
    (after 0x9AB0 (fun s => ((s.setV 10 9).setV 11 9))).map (fun t => t.pc) = some 0x202 := by decide
theorem test_B19_sne_reg :
    (after 0x9AB0 (fun s => ((s.setV 10 9).setV 11 8))).map (fun t => t.pc) = some 0x204 := by decide
theorem test_B22_jp_v0_not_masked :
    (after 0xBFFF (fun s => (s.setV 0 0xFF))).map (fun t => t.pc) = some 0x10FE := by decide
theorem test_B23_jp_v0_uses_V0 :
    (after 0xB300 (fun s => (s.setV 3 0x77))).map (fun t => t.pc) = some 0x300 := by decide

/-! ### Memory and register transfer (vectors M1 to M31) -/

theorem test_M1_ld_imm :
    (after 0x6A7F (fun s => s)).map (fun t => t.getV 10) = some 0x7F := by decide
theorem test_M3_ld_reg :
    (after 0x8AB0 (fun s => (s.setV 11 0x99))).map (fun t => t.getV 10) = some 0x99 := by decide
theorem test_M5_ld_I :
    (after 0xA123 (fun s => s.setI 0xFFFF)).map (fun t => t.I) = some 0x0123 := by decide
theorem test_M7_ld_vx_dt :
    (after 0xFA07 (fun s => s.setDT 0x3C)).map (fun t => (t.getV 10, t.dt)) = some (0x3C, 0x3C) := by decide
theorem test_M8_ld_dt_vx :
    (after 0xFA15 (fun s => (s.setV 10 0x3C))).map (fun t => t.dt) = some 60 := by decide
theorem test_M9_ld_st_vx :
    (after 0xFA18 (fun s => (s.setV 10 5))).map (fun t => (t.st, t.soundActive)) = some (5, true) := by decide
theorem test_M10_ld_st_vx_zero :
    (after 0xFA18 (fun s => (s.setV 10 0).setST 9)).map (fun t => (t.st, t.soundActive)) = some (0, false) := by decide
theorem test_M12_add_I_past_memory :
    (after 0xFA1E (fun s => ((s.setV 10 1).setV 15 7).setI 0xFFF)).map (fun t => (t.I, t.getV 15)) = some (0x1000, 7) := by decide
theorem test_M13_add_I_wraps :
    (after 0xFA1E (fun s => ((s.setV 10 2).setV 15 7).setI 0xFFFF)).map (fun t => (t.I, t.getV 15)) = some (0x0001, 7) := by decide
theorem test_M16_ld_F :
    (after 0xFA29 (fun s => (s.setV 10 0x0F))).map (fun t => t.I) = some 0x04B := by decide
theorem test_M18_ld_F_whole_byte :
    (after 0xFA29 (fun s => (s.setV 10 0xFF))).map (fun t => t.I) = some 0x4FB := by decide
theorem test_M21_ld_B_at_the_end :
    (after 0xFA33 (fun s => (s.setV 10 123).setI 0xFFD)).map (fun t => (t.readByte 0xFFD, t.readByte 0xFFE, t.readByte 0xFFF)) = some (1, 2, 3) := by decide
theorem test_M22_ld_B_beyond :
    (after 0xFA33 (fun s => ((s.setV 10 123).setI 0xFFE).writeBytes 0xFFE [7, 8])).map (fun t => (faultOf t, t.readByte 0xFFE, t.readByte 0xFFF)) = some ((some .dataAddressOutOfRange, 0x1000, 0x202), 7, 8) := by decide
theorem test_M24_store_regs :
    (after 0xF355 (fun s => (((s.setV 0 0x11).setV 3 0x44).setV 4 0x55).setI 0x400)).map (fun t => ((List.range 5).map (fun k => t.readByte (0x400 + k)), t.I)) = some ([0x11, 0, 0, 0x44, 0], 0x400) := by decide
theorem test_M27_store_regs_beyond :
    (after 0xFF55 (fun s => (s.setV 0 0x11).setI 0xFF1)).map (fun t => (faultOf t, t.readByte 0xFF1)) = some ((some .dataAddressOutOfRange, 0x1000, 0x202), 0) := by decide
theorem test_M28_load_regs :
    (after 0xF365 (fun s => ((s.setV 4 9).setI 0x400).writeBytes 0x400 [1, 2, 3, 4, 5])).map (fun t => (t.v.toList.take 5, t.I)) = some ([1, 2, 3, 4, 9], 0x400) := by decide
theorem test_M31_load_regs_beyond :
    (after 0xF165 (fun s => (s.setI 0xFFF).writeBytes 0xFFF [0x5A])).map (fun t => (faultOf t, t.getV 0)) = some ((some .dataAddressOutOfRange, 0x1000, 0x202), 0) := by decide

/-! ### Graphics and input (vectors G1 to G14, K1 to K11) -/

/-- Those of the listed cells (by the index of R28) that are set. -/
def setCells (t : State) (cells : List Nat) : List Nat := cells.filter t.cell

theorem test_G5_drw_start_reduced :
    (after 0xD121 (fun s => (((s.setV 1 0xFF).setV 2 0xFF).setI 0x300).writeBytes 0x300 [0xFF])).map (fun t => (setCells t [1983, 1984, 1990, 1991, 2046, 2047], t.getV 15, t.redraw)) = some ([1984, 1990, 2047], 0, true) := by decide
theorem test_G11_drw_live_VF :
    (after 0xDF11 (fun s => ((((s.setV 15 5).setV 1 0).flipCell 0).setI 0x300).writeBytes 0x300 [0xC0])).map (fun t => (setCells t [0, 1, 2, 3, 64], t.getV 15)) = some ([2], 1) := by decide
theorem test_G14_cls :
    (after 0x00E0 (fun s => ((s.setV 15 3).flipCell 70).flipCell 2047)).map (fun t => (setCells t [70, 2047], t.getV 15, t.pc)) = some ([], 3, 0x202) := by decide
theorem test_K1_skp :
    (after 0xEA9E (fun s => (s.setV 10 7).setKey 7 true)).map (fun t => t.pc) = some 0x204 := by decide
theorem test_K10_skp_fault :
    (after 0xEA9E (fun s => (s.setV 10 0x10))).map (fun t => (faultOf t, t.lastWord)) = some ((some .keyIndexOutOfRange, 0x0010, 0x202), 0xEA9E) := by decide
theorem test_K3_sknp :
    (after 0xEAA1 (fun s => (s.setV 10 7).setKey 7 true)).map (fun t => t.pc) = some 0x202 := by decide
theorem test_K11_sknp_fault :
    (after 0xEAA1 (fun s => (s.setV 10 0xFF))).map (fun t => faultOf t) = some (some .keyIndexOutOfRange, 0x00FF, 0x202) := by decide
theorem test_K5_ld_K_waits :
    (after 0xF30A (fun s => (s.setV 3 9))).map (fun t => (t.pc, t.getV 3)) = some (0x200, 9) := by decide
theorem test_K7_ld_K_highest :
    (after 0xF30A (fun s => ((s.setKey 2 true).setKey 7 true).setKey 11 true)).map (fun t => (t.pc, t.getV 3)) = some (0x202, 0x0B) := by decide

/-! ### Host operations (vectors H1 to H14) -/

theorem test_H2_H3_ticks :
    (hostTickTimers ((State.reset.setDT 1).setST 1)).dt = 0 ∧ tickTimersResult ((State.reset.setDT 1).setST 1) = false ∧
    (hostTickTimers (State.reset.setST 2)).st = 1 ∧ tickTimersResult (State.reset.setST 2) = true ∧
    (hostTickTimers State.reset).dt = 0 := by decide
theorem test_H8_load_program :
    (nextOf (perform (.loadProgram [0x12, 0x00]) (State.reset.writeBytes 0x201 [5, 6]))).map
      (fun t => (t.readByte 0x200, t.readByte 0x201, t.readByte 0x202)) = some (0x12, 0x00, 6) := by decide
theorem test_H10_program_too_large (bytes : List Byte) (h : bytes.length = 3585) :
    (nextOf (perform (.loadProgram bytes) State.reset)).map faultOf = some (some .programTooLarge, 0x0E01, 0x200) := by
  simp [perform, hostLoadProgram, Config.progMaxLen, h, nextOf, faultOf, State.latch, State.reset]
theorem test_H13_reset :
    let s := hostReset { ((withDepth 5 State.reset).setV 10 9).flipCell 70 with
      pc := 0x345, I := 0x777, err := some .unknownOpcode, errInfo := 0x5001, mem := [(0x300, 0xAA)] }
    (s.pc, s.sp, s.I, s.cell 70, s.err) = (0x200, 0, 0, false, none) ∧
    (s.errInfo, s.getV 10, s.readByte 0x300, s.slot 4) = (0x5001, 9, 0xAA, 0x304) := by decide
theorem test_H14_halted_host_operations :
    (nextOf (performAll [.keyDown 1, .tickTimers] { State.reset.setDT 3 with err := some .stackOverflow })).map
      (fun t => (t.keyIsDown 1, t.dt, t.err)) = some (true, 2, some .stackOverflow) := by decide
theorem test_outputs_error_codes :
    ([.unsupportedOpcode, .unknownOpcode, .programTooLarge, .fetchOutOfRange, .dataAddressOutOfRange, .stackOverflow,
      .stackUnderflow, .keyIndexOutOfRange].map faultCode : List (BitVec 4)) = [1, 2, 3, 4, 5, 6, 7, 8] := by decide
theorem test_memory_canonical :
    Memory.write (Memory.write [] 5 7) 5 0 = [] ∧ Memory.write (Memory.write [] 5 7) 3 9 = [(3, 9), (5, 7)] := by decide

/-! ### Witnesses: concrete states and operands that meet the hypotheses of the obligations -/

/-- A well-formed instruction whose fields are all at their highest values, and the neighbour of the excluded `SYS`. -/
theorem witness_DecodeOfEncodeIsTheInstruction :
    (Instr.drw 15 15 15).wellFormed = true ∧ (Instr.sys 0x0E1).wellFormed = true := by decide
theorem witness_EncodeOfDecodeIsTheWord : decodeWord 0x81F6#16 = .ok (.shr 1 15) := by decide
theorem witness_DecoderFollowsTheOpcodeMap :
    decodeWord 0x81F6#16 = .ok (.shr 1 15) ∧ decodeWord 0xF0FF#16 = .error (.unknownOpcode 0xF0FF) ∧
    rowOf .ret ∈ opcodeMap ∧ rowOf (.sys 0) ∈ opcodeMap ∧
    (rowOf .ret).fits 0x00EE#16 = true ∧ (rowOf (.sys 0)).fits 0x00EE#16 = true := by decide
/-- The last `pc` a fetch accepts. -/
theorem witness_StepRunsTheDecodedInstruction :
    let s := before 0x6A7F (fun s => { s with pc := 0x0FFE })
    s.err = none ∧ s.pc.toNat = 0x0FFE ∧
    (0x6A7F#16).toNat = (s.readByte s.pc.toNat).toNat * 256 + (s.readByte (s.pc.toNat + 1)).toNat ∧
    decodeWord 0x6A7F#16 = .ok (.ldImm 10 0x7F) := by decide
theorem witness_StepOnAnUnknownWordStopsTheCore :
    let s := before 0x5001 (fun s => { s with pc := 0x0FFE })
    s.err = none ∧ s.pc.toNat = 0x0FFE ∧
    (0x5001#16).toNat = (s.readByte s.pc.toNat).toNat * 256 + (s.readByte (s.pc.toNat + 1)).toNat ∧
    decodeWord 0x5001#16 = .error (.unknownOpcode 0x5001) := by decide
/-- The first `pc` a fetch refuses. -/
theorem witness_StepBeyondMemoryStopsTheCore :
    let s := { State.reset with pc := 0x0FFF }
    s.err = none ∧ 0x0FFE < s.pc.toNat := by decide
theorem witness_StepOfAHaltedCoreChangesNothing :
    { State.reset with err := some .fetchOutOfRange }.err ≠ none := by decide
/-- The last two of sixteen registers, stored at the end of memory. -/
theorem witness_AFetchSeesTheBytesJustStored :
    let s := State.reset.setI 0xFF0
    s.mem.wf = true ∧ s.I.toNat + (15 : RegIdx).val = 0xFFF ∧ (15 : RegIdx) ≤ 15 ∧ (15 : RegIdx).val = (14 : RegIdx).val + 1 := by
  decide
/-- The call that takes the last stack slot. -/
theorem witness_ACallThenAReturnResumesAfterTheCall :
    let s := (before 0x2210 (withDepth 11)).writeBytes 0x210 [0x00, 0xEE]
    s.err = none ∧ s.pc.toNat ≤ 0x0FFE ∧ (0x210#12).toNat ≤ 0x0FFE ∧ s.sp.val = 11 ∧
    decodeWord s.fetchWord = .ok (.call 0x210) ∧ (s.jump (wordOfImm 0x210)).fetchWord = 0x00EE#16 := by decide
theorem witness_ASelfJumpReproducesTheState : (before 0x1FFE (fun s => { s with pc := 0x0FFE })).HaltedNormally :=
  ⟨by decide, by decide, by decide⟩
theorem witness_AKeyWaitWithNoKeyDownChangesOnlyRedraw :
    let s := (before 0xF30A id).setRedraw true
    s.err = none ∧ s.pc.toNat ≤ 0x0FFE ∧ decodeWord s.fetchWord = .ok (.ldVxK 3) ∧ ∀ k, s.keyIsDown k = false := by decide
theorem witness_ReturnPopsTheStack :
    (withDepth 1 State.reset).sp.val = (0 : Fin 12).val + 1 ∧ (withDepth 12 State.reset).sp.val = (11 : Fin 12).val + 1 ∧
    State.reset.sp.val = 0 := by decide
theorem witness_CallPushesThePcAndJumps :
    State.reset.sp.val = (0 : Fin 12).val ∧ (withDepth 11 State.reset).sp.val = (11 : Fin 12).val ∧
    (withDepth 12 State.reset).sp.val = 12 := by decide
theorem witness_DecimalStoreWritesThreeDigits :
    let s := (State.reset.setI 0xFFD).setV 3 255
    s.mem.wf = true ∧ s.I.toNat + 2 = 0xFFF := by decide
theorem witness_RegisterStoreWritesTheRange :
    (State.reset.setI 0xFF0).mem.wf = true ∧ (State.reset.setI 0xFF0).I.toNat + (15 : RegIdx).val = 0xFFF ∧
    (State.reset.setI 0xFFF).I.toNat + (0 : RegIdx).val = 0xFFF := by decide
theorem witness_RegisterLoadReadsTheRange :
    (State.reset.setI 0xFF0).I.toNat + (15 : RegIdx).val = 0xFFF ∧ (State.reset.setI 0xFFF).I.toNat + (0 : RegIdx).val = 0xFFF := by
  decide
/-- The lowest `I` at which each of the four faults. -/
theorem witness_AnAddressBeyondMemoryFaultsBeforeAnyWrite :
    (0 < (2#4).toNat ∧ 0xFFF < (State.reset.setI 0xFFF).I.toNat + (2#4).toNat - 1) ∧
    0xFFF < (State.reset.setI 0xFFE).I.toNat + 2 ∧
    0xFFF < (State.reset.setI 0xFF1).I.toNat + (15 : RegIdx).val ∧
    0xFFF < (State.reset.setI 0x1000).I.toNat + (0 : RegIdx).val := by decide
/-- `CLS_SETS_REDRAW` has no value a proof can see; one of the two premises holds. -/
theorem witness_ClearScreenClearsEveryCell : Config.clsSetsRedraw = true ∨ Config.clsSetsRedraw = false := by
  cases Config.clsSetsRedraw
  · exact .inr rfl
  · exact .inl rfl
/-- Two rows at the end of memory, and no row beyond it. -/
theorem witness_DrawFollowsTheScanOfItsSetBits :
    (0 < (2#4).toNat ∧ (State.reset.setI 0xFFE).I.toNat + (2#4).toNat - 1 = 0xFFF) ∧
    (0 < (0#4).toNat → (State.reset.setI 0xFFFF).I.toNat + (0#4).toNat - 1 ≤ 0xFFF) := by decide
theorem witness_DrawFlipsExactlyTheSpriteCells :
    (1 : RegIdx) ≠ vf ∧ (14 : RegIdx) ≠ vf ∧ (0 < (2#4).toNat → (State.reset.setI 0xFFE).I.toNat + (2#4).toNat - 1 ≤ 0xFFF) := by
  decide
/-- A sprite with set bits over a clear region. -/
theorem witness_DrawingTwiceRestoresTheScreen :
    let s := (State.reset.setI 0xFFF).writeBytes 0xFFF [0x81]
    (1 : RegIdx) ≠ vf ∧ (2 : RegIdx) ≠ vf ∧ (0 < (1#4).toNat → s.I.toNat + (1#4).toNat - 1 ≤ 0xFFF) ∧
    (∀ c ∈ spriteCells s (s.getV 1).toNat (s.getV 2).toNat (1#4).toNat, s.cell c = false) ∧
    spriteCells s (s.getV 1).toNat (s.getV 2).toNat (1#4).toNat ≠ [] := by decide
/-- The highest key, down and up. -/
theorem witness_KeyTestsSkipOnTheKeyState :
    let s := (State.reset.setV 10 15).setKey 15 true
    (s.getV 10).toNat = (15 : KeyIdx).val ∧ s.keyIsDown 15 = true ∧ (State.reset.getV 10).toNat = (0 : KeyIdx).val ∧
    State.reset.keyIsDown 0 = false := by decide
theorem witness_AKeyTestBeyondTheKeypadFaults : 15 < ((State.reset.setV 10 16).getV 10).toNat := by decide
theorem witness_KeyWaitTakesTheHighestKeyDown :
    let s := (State.reset.setKey 2 true).setKey 11 true
    (s.keyIsDown 11 = true ∧ ∀ j, (11 : KeyIdx) < j → s.keyIsDown j = false) ∧
    ((State.reset.setKey 15 true).keyIsDown 15 = true ∧ ∀ j, (15 : KeyIdx) < j → (State.reset.setKey 15 true).keyIsDown j = false) ∧
    ∀ k, State.reset.keyIsDown k = false := by decide
theorem witness_EveryInstructionKeepsItsFrame :
    (∃ t, exec (.addReg 1 2) (State.reset.setV 1 5) = .next t ∧ t.getV 1 = 5) ∧
    ∃ t, exec (.storeRegs 15) (State.reset.setI 0xFF0) = .next t ∧ t.err = none :=
  ⟨⟨_, rfl, by decide⟩, ⟨_, rfl, by decide⟩⟩
theorem witness_AFaultingInstructionWritesNothingElse :
    State.reset.err = none ∧ exec .ret State.reset = .next (State.reset.latch .stackUnderflow 0x00EE) := ⟨rfl, rfl⟩
/-- One of the five arithmetic forms, and a draw into `VF`'s own row. -/
theorem witness_AFlagIsZeroOrOne :
    (∃ t, exec (.shl 14 15) State.reset = .next t ∧ State.reset.err = none ∧ t.err = none ∧ (14 : RegIdx) ≠ vf) ∧
    (∃ t, exec (.drw 15 15 15) State.reset = .next t ∧ t.err = none) :=
  ⟨⟨_, rfl, rfl, rfl, by decide⟩, ⟨_, rfl, by decide +kernel⟩⟩
/-- A step that completes a draw, one that faults in it, and a `00E0`. -/
theorem witness_RedrawSaysADrawCompleted :
    (∃ t, (before 0xD120 id).err = none ∧ (before 0xD120 id).pc.toNat ≤ 0x0FFE ∧ step (before 0xD120 id) = .next t ∧
      decodeWord (before 0xD120 id).fetchWord = .ok (.drw 1 2 0) ∧ t.err = none) ∧
    (∃ t, step (before 0xD121 (·.setI 0x1000)) = .next t ∧ t.err = some .dataAddressOutOfRange) ∧
    (∃ t, step (before 0x00E0 id) = .next t ∧ decodeWord (before 0x00E0 id).fetchWord = .ok .cls) :=
  ⟨⟨_, by decide, by decide, rfl, by decide, rfl⟩, ⟨_, rfl, rfl⟩, ⟨_, rfl, by decide⟩⟩
/-- A running core whose step faults, a halted core with its report, and one whose program was too large. -/
theorem witness_EveryStepKeepsTheFaultReport :
    (FaultReport (before 0x5001 id) ∧ ∃ t, step (before 0x5001 id) = .next t ∧ t.err = some .unknownOpcode) ∧
    (let s := (before 0xA123 (·.setI 0x2345)).latch .fetchOutOfRange 0x0FFF
     FaultReport { s with pc := 0x0FFF } ∧ ∃ t, step { s with pc := 0x0FFF } = .next t) ∧
    (let s := State.reset.latch .programTooLarge 3585
     FaultReport s ∧ ∃ t, step s = .next t ∧ t.err = some .programTooLarge) :=
  ⟨⟨trivial, _, rfl, rfl⟩, ⟨⟨rfl, by decide⟩, _, rfl⟩, ⟨trivial, _, rfl, rfl⟩⟩
theorem witness_OnlyResetClearsTheErrorLatch :
    let s := { State.reset with err := some .unknownOpcode }
    s.err ≠ none ∧ (∃ t, perform .reset s = .next t) ∧ ∃ t, perform (.loadProgram [1]) s = .next t :=
  ⟨by decide, ⟨_, rfl⟩, ⟨_, rfl⟩⟩
/-- A state that is not the one after reset, in which a step takes the last stack slot; and the bounds of the invariant. -/
theorem witness_EveryStepKeepsTheInvariant :
    MachineInv { withDepth 11 State.reset with pc := 0x200, mem := [(0x200, 0x2F), (0x201, 0xFE), (0xFFF, 1)] } ∧
    (∃ t, step { withDepth 11 State.reset with pc := 0x200, mem := [(0x200, 0x2F), (0x201, 0xFE), (0xFFF, 1)] } = .next t ∧
      t.err = none ∧ t.sp = 12 ∧ t.pc = 0x0FFE) ∧
    MachineInv { withDepth 12 State.reset with pc := 0x10FE } :=
  ⟨⟨by decide, by decide, by decide⟩, ⟨_, rfl, by decide, by decide, by decide⟩, ⟨by decide, by decide, by decide⟩⟩
theorem witness_EveryExecutionKeepsTheInvariant :
    MachineInv State.reset ∧ ∃ t, performAll [.loadProgram [0x12, 0x00], .keyDown 3, .step, .tickTimers] State.reset = .next t :=
  ⟨⟨by decide, by decide, by decide⟩, _, rfl⟩
/-- The longest program accepted and the shortest refused. -/
theorem witness_LoadProgramCopiesOrRejects :
    State.reset.mem.wf = true ∧ (List.replicate 3584 (1 : Byte)).length ≤ 3584 ∧ 3584 < (List.replicate 3585 (1 : Byte)).length :=
  ⟨by decide, List.length_replicate.le, List.length_replicate.ge⟩
theorem witness_EveryHostOperationKeepsItsFrame : ∃ t, perform .reset (State.reset.setI 7) = .next t := ⟨_, rfl⟩
theorem witness_LoadFontsCopiesEightyBytes : (State.reset.writeBytes 0 [1, 2]).mem.wf = true := by decide
/-- A power-on state that differs from reset in what R220 calls arbitrary. -/
theorem witness_TheBootSequenceReachesALaunchState :
    let s := { State.reset.setV 3 9 with mem := [(0, 5), (0xFFF, 6)], I := 7, redraw := true }
    s.IsPowerOn ∧ s.mem.wf = true ∧ (List.replicate 3584 (1 : Byte)).length ≤ 3584 ∧ ([0x12, 0x00] : List Byte) = 0x12 :: 0x00 :: [] :=
  ⟨⟨rfl, rfl, rfl, by decide⟩, by decide, List.length_replicate.le, rfl⟩

end Sys2Proof.Tests
end

