-- ==== Sys2Proof/Proofs/StepCycle.lean ====
section
/-! The step cycle (`40_step_cycle.md`): the fetched word by its value, the prologue by its fields, and the step of a
running core that they give. -/

namespace Sys2Proof.Machine

/-- A word whose value is the big-endian pair at `pc` is the word the step fetches (R53). -/
theorem State.fetchWord_eq_of_toNat {s : State} {op : Word}
    (hop : op.toNat = (s.readByte s.pc.toNat).toNat * 256 + (s.readByte (s.pc.toNat + 1)).toNat) :
    s.fetchWord = op :=
  BitVec.eq_of_toNat_eq (s.toNat_fetchWord.trans hop.symm)

/-- ADVANCE and CLEAR with the size of an instruction written out (R92, R93). -/
theorem State.advance_eq (s : State) : s.advance = { s with pc := s.pc + 2#16, redraw := false } := rfl

/-- Settles O5: the word given by its value is the word fetched, so the step takes its running branch. -/
theorem stepRunsTheDecodedInstruction : Obligations.StepRunsTheDecodedInstruction := by
  intro s op i herr hpc hop hdecode
  have hfetch : s.fetchWord = op := State.fetchWord_eq_of_toNat hop
  rw [← State.advance_eq]
  exact step_running herr hpc (hfetch ▸ hdecode)

end Sys2Proof.Machine
end

