-- ==== Sys2Proof/Proofs/ArithmeticLogic.lean ====
section
/-! Arithmetic and logic (`41_arithmetic_logic.md`): what a plain register write leaves of the flag and the error latch,
and the addition of an immediate. -/

namespace Sys2Proof.Machine

/-- A register write reaches `VF` only as its destination, and never the error latch. -/
theorem State.setV_noFlagNoFault (s : State) (x : RegIdx) (b : Byte) : NoFlagNoFault (some x) s (s.setV x b) := by
  refine ⟨fun hdest => ?_, s.setV_err x b, s.setV_errInfo x b⟩
  have hvf : vf ≠ x := fun h => hdest (congrArg some h.symm)
  rw [State.setV_getV, if_neg hvf]

/-- The meaning of `7XNN` (R100). -/
theorem exec_addImm (x : RegIdx) (nn : Byte) (s : State) :
    exec (.addImm x nn) s = .next (s.setV x (s.getV x + nn)) := rfl

/-- Settles O13: a sum of bytes is the sum of their values modulo 256, and writing it is a plain register write. -/
theorem addImmediateWrapsAndSetsNoFlag : Obligations.AddImmediateWrapsAndSetsNoFlag := by
  intro x nn s
  refine ⟨_, exec_addImm x nn s, ?_, s.setV_noFlagNoFault x _⟩
  rw [State.setV_getV, if_pos rfl]
  exact BitVec.toNat_add (s.getV x) nn

end Sys2Proof.Machine
end

