-- ==== Sys2Proof/Proofs/ControlFlow.lean ====
section
/-! Control flow (`42_control_flow.md`): the value of a 12-bit target, what a jump and a conditional skip do to `pc` and
leave of the flag and the error latch, and the instructions made of them. -/

namespace Sys2Proof.Machine

/-! ### Jumps (R122) -/

/-- A 12-bit immediate keeps its value as a word. -/
theorem toNat_wordOfImm (nnn : Imm12) : (wordOfImm nnn).toNat = nnn.toNat :=
  BitVec.toNat_setWidth_of_le (by decide)

theorem State.jump_noFlagNoFault (s : State) (w : Word) : NoFlagNoFault none s (s.jump w) :=
  ⟨fun _ => s.jump_getV w vf, s.jump_err w, s.jump_errInfo w⟩

/-- The meaning of `1NNN` (R122). -/
theorem exec_jp (nnn : Imm12) (s : State) : exec (.jp nnn) s = .next (s.jump (wordOfImm nnn)) := rfl

/-- Settles O23: the target is the zero-extended `nnn`, and a jump writes nothing but `pc`. -/
theorem jumpSetsThePc : Obligations.JumpSetsThePc := by
  intro nnn s
  refine ⟨_, exec_jp nnn s, ?_, s.jump_noFlagNoFault _⟩
  rw [State.jump_pc, toNat_wordOfImm]

/-! ### Conditional skips (R124 to R127, R129) -/

theorem State.skipIf_noFlagNoFault (s : State) (c : Bool) : NoFlagNoFault none s (s.skipIf c) := by
  cases c with
  | false => exact ⟨fun _ => rfl, rfl, rfl⟩
  | true => exact ⟨fun _ => s.skip_getV vf, s.skip_err, s.skip_errInfo⟩

theorem State.skipIf_pc (s : State) (p : Prop) [Decidable p] :
    (s.skipIf (decide p)).pc = if p then s.pc + 2#16 else s.pc := by
  by_cases hp : p <;> simp [State.skipIf, hp]

/-- A skip on a difference, with the outcomes in the order of the equality test. -/
theorem State.skipIf_ne_pc (s : State) (a b : Byte) :
    (s.skipIf (decide (a ≠ b))).pc = if a = b then s.pc else s.pc + 2#16 :=
  (s.skipIf_pc (a ≠ b)).trans (ite_not ..)

/-- The meaning of `3XNN` (R124). -/
theorem exec_seImm (x : RegIdx) (nn : Byte) (s : State) :
    exec (.seImm x nn) s = .next (s.skipIf (decide (s.getV x = nn))) := rfl

/-- The meaning of `4XNN` (R125). -/
theorem exec_sneImm (x : RegIdx) (nn : Byte) (s : State) :
    exec (.sneImm x nn) s = .next (s.skipIf (decide (s.getV x ≠ nn))) := rfl

/-- The meaning of `5XY0` (R126). -/
theorem exec_seReg (x y : RegIdx) (s : State) :
    exec (.seReg x y) s = .next (s.skipIf (decide (s.getV x = s.getV y))) := rfl

/-- The meaning of `9XY0` (R127). -/
theorem exec_sneReg (x y : RegIdx) (s : State) :
    exec (.sneReg x y) s = .next (s.skipIf (decide (s.getV x ≠ s.getV y))) := rfl

/-- Settles O25: both instructions are conditional skips, on the equality with the immediate and on its negation. -/
theorem compareImmediateSkips : Obligations.CompareImmediateSkips := by
  intro x nn s
  constructor
  · exact ⟨_, exec_seImm x nn s, s.skipIf_pc (s.getV x = nn), s.skipIf_noFlagNoFault _⟩
  · exact ⟨_, exec_sneImm x nn s, s.skipIf_ne_pc (s.getV x) nn, s.skipIf_noFlagNoFault _⟩

/-- Settles O26: both instructions are conditional skips, on the equality of the registers and on its negation. -/
theorem compareRegistersSkips : Obligations.CompareRegistersSkips := by
  intro x y s
  constructor
  · exact ⟨_, exec_seReg x y s, s.skipIf_pc (s.getV x = s.getV y), s.skipIf_noFlagNoFault _⟩
  · exact ⟨_, exec_sneReg x y s, s.skipIf_ne_pc (s.getV x) (s.getV y), s.skipIf_noFlagNoFault _⟩

end Sys2Proof.Machine
end

