-- ==== Sys2Proof/Proofs/RegisterTransfer.lean ====
section
/-! Memory and register transfer (`43_memory_register_transfer.md`): the transfers between the general registers, `I`
and the timers, each a single named write that cannot fault. -/

namespace Sys2Proof.Machine

/-! ### Loads of a general register (R140, R141) -/

/-- A register read back after its own write. -/
theorem State.setV_getV_same (s : State) (x : RegIdx) (b : Byte) : (s.setV x b).getV x = b :=
  (s.setV_getV x x b).trans (if_pos rfl)

/-- The meaning of `6XNN` (R140). -/
theorem exec_ldImm (x : RegIdx) (nn : Byte) (s : State) : exec (.ldImm x nn) s = .next (s.setV x nn) := rfl

/-- The meaning of `8XY0` (R141). -/
theorem exec_ldReg (x y : RegIdx) (s : State) : exec (.ldReg x y) s = .next (s.setV x (s.getV y)) := rfl

/-- Settles O28: both instructions are plain register writes. -/
theorem registerLoadsWriteTheirRegister : Obligations.RegisterLoadsWriteTheirRegister := by
  intro x y nn s
  constructor
  · exact ⟨_, exec_ldImm x nn s, s.setV_getV_same x nn, s.setV_noFlagNoFault x nn⟩
  · exact ⟨_, exec_ldReg x y s, s.setV_getV_same x _, s.setV_noFlagNoFault x _⟩

/-! ### Loads of the index register (R142, R147) -/

/-- Five times a byte is at most 1275, so the glyph address is the unreduced product. -/
theorem toNat_glyphAddr (b : Byte) : (glyphAddr b).toNat = b.toNat * 5 := by
  have hlt : b.toNat * 5 < 2 ^ 16 := by omega
  exact (BitVec.toNat_ofNat ..).trans (Nat.mod_eq_of_lt hlt)

theorem State.setI_noFlagNoFault (s : State) (w : Word) : NoFlagNoFault none s (s.setI w) :=
  ⟨fun _ => s.setI_getV w vf, s.setI_err w, s.setI_errInfo w⟩

/-- The meaning of `ANNN` (R142). -/
theorem exec_ldI (nnn : Imm12) (s : State) : exec (.ldI nnn) s = .next (s.setI (wordOfImm nnn)) := rfl

/-- The meaning of `FX29` (R147). -/
theorem exec_ldF (x : RegIdx) (s : State) : exec (.ldF x) s = .next (s.setI (glyphAddr (s.getV x))) := rfl

/-- Settles O29: both instructions write nothing but `I`, and neither value is reduced. -/
theorem indexLoadsWriteTheIndex : Obligations.IndexLoadsWriteTheIndex := by
  constructor
  · intro nnn s
    exact ⟨_, exec_ldI nnn s, by rw [State.setI_I, toNat_wordOfImm], s.setI_noFlagNoFault _⟩
  · intro x s
    exact ⟨_, exec_ldF x s, by rw [State.setI_I, toNat_glyphAddr], s.setI_noFlagNoFault _⟩

/-! ### Transfers with the timers (R143 to R145) -/

theorem State.setDT_noFlagNoFault (s : State) (b : Byte) : NoFlagNoFault none s (s.setDT b) :=
  ⟨fun _ => s.setDT_getV b vf, s.setDT_err b, s.setDT_errInfo b⟩

theorem State.setST_noFlagNoFault (s : State) (b : Byte) : NoFlagNoFault none s (s.setST b) :=
  ⟨fun _ => s.setST_getV b vf, s.setST_err b, s.setST_errInfo b⟩

/-- `sound_active` follows a write of `ST` at once (R26, R145). -/
theorem State.setST_soundActive (s : State) (b : Byte) : (s.setST b).soundActive = decide (b ≠ 0) := rfl

/-- The meaning of `FX07` (R143). -/
theorem exec_ldVxDT (x : RegIdx) (s : State) : exec (.ldVxDT x) s = .next (s.setV x s.dt) := rfl

/-- The meaning of `FX15` (R144). -/
theorem exec_ldDTVx (x : RegIdx) (s : State) : exec (.ldDTVx x) s = .next (s.setDT (s.getV x)) := rfl

/-- The meaning of `FX18` (R145). -/
theorem exec_ldSTVx (x : RegIdx) (s : State) : exec (.ldSTVx x) s = .next (s.setST (s.getV x)) := rfl

/-- Settles O30: `FX07` is a plain register write, which leaves `DT`; `FX15` and `FX18` write one timer each. -/
theorem timerTransfersMoveOneByte : Obligations.TimerTransfersMoveOneByte := by
  intro x s
  refine ⟨?_, ?_, ?_⟩
  · exact ⟨_, exec_ldVxDT x s, s.setV_getV_same x _, s.setV_dt x _, s.setV_noFlagNoFault x _⟩
  · exact ⟨_, exec_ldDTVx x s, s.setDT_dt _, s.setDT_noFlagNoFault _⟩
  · exact ⟨_, exec_ldSTVx x s, s.setST_st _, s.setST_soundActive _, s.setST_noFlagNoFault _⟩

end Sys2Proof.Machine
end

