-- ==== Sys2Proof/Proofs/GraphicsInput.lean ====
section
/-! Graphics and input (`44_graphics_input.md`): the wait for a key, whose scan finds the highest key down or nothing. -/

namespace Sys2Proof.Machine

/-- A key number fits a byte, so the register holds the number itself (R164). -/
theorem toNat_byteOfKey (k : KeyIdx) : (byteOfKey k).toNat = k.val := by
  have hlt : k.val < 2 ^ 8 := by omega
  exact (BitVec.toNat_ofNat ..).trans (Nat.mod_eq_of_lt hlt)

/-- Going back to the instruction in progress writes nothing but `pc` (R164). -/
theorem State.rewind_onlyChanges (s : State) : OnlyChanges [.pc] s s.rewind := by
  intro p hp
  cases p with
  | pc => exact absurd List.mem_cons_self hp
  | stack => exact ⟨s.rewind_sp, s.rewind_slot⟩
  | error => exact ⟨s.rewind_err, s.rewind_errInfo⟩
  | registers | index | delayTimer | soundTimer | keypad | screen | redraw | memory | draws => simp [SamePart]

/-- Settles O41: the scan finds the highest key down, which is then a plain register write; where it finds nothing, the
instruction only rewinds. -/
theorem keyWaitTakesTheHighestKeyDown : Obligations.KeyWaitTakesTheHighestKeyDown := by
  intro x s
  constructor
  · intro k hdown habove
    have hscan : s.scanKeys = some k := State.scanKeys_eq_some hdown habove
    refine ⟨_, exec_ldVxK_key hscan, ?_, s.setV_pc x _, s.setV_noFlagNoFault x _⟩
    rw [State.setV_getV_same, toNat_byteOfKey]
  · intro hup
    have hscan : s.scanKeys = none := State.scanKeys_eq_none.2 hup
    exact ⟨_, exec_ldVxK_none hscan, s.rewind_pc, s.rewind_onlyChanges⟩

end Sys2Proof.Machine
end

