-- ==== Sys2Proof/Proofs/HostOperations.lean ====
section
/-! Host operations (`45_host_operations.md`): the tick of one counter by its value, the two timers through one tick and
through any number of them, and the font copy as a run of bytes from address 0. -/

namespace Sys2Proof.Machine

/-! ### Ticks (R184) -/

/-- A tick is the truncated predecessor: a counter at 0 stays there. -/
theorem toNat_tickDown (b : Byte) : (tickDown b).toNat = b.toNat - 1 := by
  unfold tickDown
  split
  next hzero => simp [hzero]
  next hne =>
    have hone : 1#8 ≤ b := by bv_omega
    exact BitVec.toNat_sub_of_le hone

@[simp] theorem hostTickTimers_dt (s : State) : (hostTickTimers s).dt = tickDown s.dt := rfl

@[simp] theorem hostTickTimers_st (s : State) : (hostTickTimers s).st = tickDown s.st := rfl

theorem perform_tickTimers (s : State) : perform .tickTimers s = .next (hostTickTimers s) := rfl

/-- `tick_timers()` returns the condition on `ST` as the tick leaves it. -/
theorem tickTimersResult_eq (s : State) : tickTimersResult s = decide ((hostTickTimers s).st ≠ 0#8) := rfl

/-- An operation that acts as a function of the state, repeated, acts as that function iterated. -/
theorem performAll_replicate {o : Operation} {f : State → State} (hperform : ∀ s, perform o s = .next (f s))
    (n : Nat) (s : State) : performAll (List.replicate n o) s = .next (f^[n] s) := by
  induction n generalizing s with
  | zero => rfl
  | succ n ih => rw [List.replicate_succ, performAll_cons (hperform s), ih, Function.iterate_succ_apply]

/-- A counter that every application of `f` ticks once is down by `n` after `n` applications, or at 0. -/
theorem toNat_iterate_of_tickDown {f : State → State} {counter : State → Byte}
    (htick : ∀ s, counter (f s) = tickDown (counter s)) (n : Nat) (s : State) :
    (counter (f^[n] s)).toNat = (counter s).toNat - n := by
  induction n with
  | zero => rfl
  | succ n ih => rw [Function.iterate_succ_apply', htick, toNat_tickDown, ih, Nat.sub_sub]

/-- Settles O57: a tick takes each timer to its truncated predecessor, and ticks in a row are that step iterated. -/
theorem ticksCountDownToZero : Obligations.TicksCountDownToZero := by
  intro s
  constructor
  · exact ⟨_, perform_tickTimers s, toNat_tickDown s.dt, toNat_tickDown s.st, tickTimersResult_eq s⟩
  · intro n
    exact ⟨_, performAll_replicate perform_tickTimers n s, toNat_iterate_of_tickDown hostTickTimers_dt n s,
      toNat_iterate_of_tickDown hostTickTimers_st n s⟩

/-! ### The font (R180) -/

theorem perform_loadFonts (s : State) :
    perform .loadFonts s = .next (s.writeBytes 0 Config.font.toList) := rfl

/-- Settles O55: the font is a run of 80 bytes from address 0, read back inside the run and not met beyond it. -/
theorem loadFontsCopiesEightyBytes : Obligations.LoadFontsCopiesEightyBytes := by
  intro s hmem
  have hlen : Config.font.toList.length = 80 := Vector.length_toList
  refine ⟨_, perform_loadFonts s, fun k hk => ?_, fun a ha => ?_⟩
  · calc (s.writeBytes 0 Config.font.toList).readByte k
        = (s.writeBytes 0 Config.font.toList).readByte (0 + k) := by rw [Nat.zero_add]
      _ = Config.font.toList[k] := State.readByte_writeBytes_at _ k (by omega) hmem (by omega)
      _ = Config.font[k] := Vector.getElem_toList (by omega)
  · exact s.readByte_writeBytes_other _ (.inr (by omega))

end Sys2Proof.Machine
end

