-- ==== Sys2Proof/Proofs/Encoding.lean ====
section
/-! Encoding (`30_encoding.md`): decoder and encoder are inverse on the words that decode, by the formats of R72, and
the decoder agrees with the masks and matches of R75, by comparing the fields a mask keeps. -/

namespace Sys2Proof

/-! ### Decoding an encoding (R72, R74) -/

/-- Where `0NNN` is not the word of `CLS` or `RET`, it decodes as `SYS` (R74, R77). -/
theorem decode0_sys {nnn : Imm12} (h : sysOperandOk nnn) : decode0 (packNNN 0#4 nnn) = .ok (.sys nnn) := by
  obtain ⟨hcls, hret⟩ := h
  have ne_of_field (w : Word) (hw : nnn ≠ fieldNNN w) : packNNN 0#4 nnn ≠ w := fun heq =>
    hw ((fieldNNN_packNNN 0#4 nnn).symm.trans (congrArg fieldNNN heq))
  unfold decode0
  rw [if_neg (ne_of_field 0x00E0#16 hcls), if_neg (ne_of_field 0x00EE#16 hret), fieldNNN_packNNN]

theorem decodeWord_encode {i : Instr} (h : i.wellFormed = true) : decodeWord (encode i) = .ok i := by
  cases i with
  | cls | ret => rfl
  | sys nnn => simpa [encode, decodeWord] using decode0_sys (of_decide_eq_true h)
  | jp nnn | call nnn | ldI nnn | jpV0 nnn => simp [encode, decodeWord]
  | seImm x nn | sneImm x nn | ldImm x nn | addImm x nn | rnd x nn => simp [encode, decodeWord]
  | seReg x y | sneReg x y | drw x y n => simp [encode, decodeWord]
  | ldReg x y | orReg x y | andReg x y | xorReg x y | addReg x y | subReg x y | shr x y | subnReg x y | shl x y =>
    simp [encode, decodeWord, decode8]
  | skp x | sknp x => simp [encode, decodeWord, decodeE]
  | ldVxDT x | ldVxK x | ldDTVx x | ldSTVx x | addI x | ldF x | ldB x | storeRegs x | loadRegs x =>
    simp [encode, decodeWord, decodeF]

/-- Settles O1: as a word by the format of each constructor, as bytes because a word split in two is the word. -/
theorem decodeOfEncodeIsTheInstruction : Obligations.DecodeOfEncodeIsTheInstruction := by
  intro i hwf
  have hword : decodeWord (encode i) = .ok i := decodeWord_encode hwf
  exact ⟨hword, fun rest => decode_two _ _ rest ((wordOfBytes_split (encode i)).symm ▸ hword)⟩

/-! ### Encoding what a word decodes to (R74, R78) -/

/-- A word of format `NNN` from its known top nibble. -/
theorem packNNN_of_fields {op : Word} {t : Nibble} (ht : fieldTop op = t) : packNNN t (fieldNNN op) = op :=
  ht ▸ packNNN_fields op

/-- A word of format `XNN` or `XFF` from its known top nibble and low byte. -/
theorem packXNN_of_fields {op : Word} {t : Nibble} {nn : Byte} (ht : fieldTop op = t) (hnn : fieldNN op = nn) :
    packXNN t (regOf (fieldX op)) nn = op :=
  ht ▸ hnn ▸ packXNN_fields op

/-- A word of format `XYN` or `XYF` from its known top and low nibbles. -/
theorem packXYN_of_fields {op : Word} {t n : Nibble} (ht : fieldTop op = t) (hn : fieldN op = n) :
    packXYN t (regOf (fieldX op)) (regOf (fieldY op)) n = op :=
  ht ▸ hn ▸ packXYN_fields op

/-- A word encodes `i`, and `i` is an instruction of the machine. -/
def EncodedBy (op : Word) (i : Instr) : Prop := encode i = op ∧ i.wellFormed = true

theorem encodedBy_of_decode0 {op : Word} {i : Instr} (ht : fieldTop op = 0#4) (h : decode0 op = .ok i) :
    EncodedBy op i := by
  unfold decode0 at h
  split at h
  next hcls => cases h; exact ⟨hcls.symm, rfl⟩
  next hcls =>
    split at h
    next hret => cases h; exact ⟨hret.symm, rfl⟩
    next hret =>
      cases h
      have hop : packNNN 0#4 (fieldNNN op) = op := packNNN_of_fields ht
      refine ⟨hop, decide_eq_true ⟨fun hn => hcls ?_, fun hn => hret ?_⟩⟩
      · rw [← hop, hn]; rfl
      · rw [← hop, hn]; rfl

theorem encodedBy_of_decode8 {op : Word} {i : Instr} (ht : fieldTop op = 8#4) (h : decode8 op = .ok i) :
    EncodedBy op i := by
  unfold decode8 at h
  simp only at h
  split at h <;> cases h
  all_goals exact ⟨packXYN_of_fields ht (BitVec.eq_of_toNat_eq ‹_›), rfl⟩

theorem encodedBy_of_decodeE {op : Word} {i : Instr} (ht : fieldTop op = 0xE#4) (h : decodeE op = .ok i) :
    EncodedBy op i := by
  unfold decodeE at h
  simp only at h
  split at h <;> cases h
  all_goals exact ⟨packXNN_of_fields ht (BitVec.eq_of_toNat_eq ‹_›), rfl⟩

theorem encodedBy_of_decodeF {op : Word} {i : Instr} (ht : fieldTop op = 0xF#4) (h : decodeF op = .ok i) :
    EncodedBy op i := by
  unfold decodeF at h
  simp only at h
  split at h <;> cases h
  all_goals exact ⟨packXNN_of_fields ht (BitVec.eq_of_toNat_eq ‹_›), rfl⟩

/-- Each branch of the decoder knows the top nibble, and the field it tests, of the word it was given. -/
theorem encodedBy_of_decodeWord {op : Word} {i : Instr} (h : decodeWord op = .ok i) : EncodedBy op i := by
  have top_eq {t : Nibble} (ht : (fieldTop op).toNat = t.toNat) : fieldTop op = t := BitVec.eq_of_toNat_eq ht
  have nnn {t : Nibble} (ht : (fieldTop op).toNat = t.toNat) := packNNN_of_fields (top_eq ht)
  have xnn {t : Nibble} (ht : (fieldTop op).toNat = t.toNat) := packXNN_of_fields (top_eq ht) rfl
  have xyn {t n : Nibble} (ht : (fieldTop op).toNat = t.toNat) (hn : fieldN op = n) :=
    packXYN_of_fields (top_eq ht) hn
  unfold decodeWord at h
  simp only at h
  split at h
  next ht => exact encodedBy_of_decode0 (top_eq ht) h
  next ht => cases h; exact ⟨nnn ht, rfl⟩
  next ht => cases h; exact ⟨nnn ht, rfl⟩
  next ht => cases h; exact ⟨xnn ht, rfl⟩
  next ht => cases h; exact ⟨xnn ht, rfl⟩
  next ht => split at h <;> cases h; exact ⟨xyn ht ‹_›, rfl⟩
  next ht => cases h; exact ⟨xnn ht, rfl⟩
  next ht => cases h; exact ⟨xnn ht, rfl⟩
  next ht => exact encodedBy_of_decode8 (top_eq ht) h
  next ht => split at h <;> cases h; exact ⟨xyn ht ‹_›, rfl⟩
  next ht => cases h; exact ⟨nnn ht, rfl⟩
  next ht => cases h; exact ⟨nnn ht, rfl⟩
  next ht => cases h; exact ⟨xnn ht, rfl⟩
  next ht => cases h; exact ⟨xyn ht rfl, rfl⟩
  next ht => exact encodedBy_of_decodeE (top_eq ht) h
  next ht => exact encodedBy_of_decodeF (top_eq ht) h
  next => cases h

/-- Settles O2: the branch that answered knows every field of the word. -/
theorem encodeOfDecodeIsTheWord : Obligations.EncodeOfDecodeIsTheWord := fun _ _ h => encodedBy_of_decodeWord h

/-! ### The opcode map (R74 to R76) -/

@[simp] theorem fieldTop_and (a b : Word) : fieldTop (a &&& b) = fieldTop a &&& fieldTop b := BitVec.extractLsb'_and
@[simp] theorem fieldN_and (a b : Word) : fieldN (a &&& b) = fieldN a &&& fieldN b := BitVec.extractLsb'_and
@[simp] theorem fieldNN_and (a b : Word) : fieldNN (a &&& b) = fieldNN a &&& fieldNN b := BitVec.extractLsb'_and

theorem OpcodeRow.fits_iff (r : OpcodeRow) (op : Word) : r.fits op = true ↔ op &&& r.mask = r.bits := beq_iff_eq

/-- The mask of a row keeps the whole top nibble, which the row then fixes. -/
theorem fieldTop_of_fits {r : OpcodeRow} {op : Word} (h : r.fits op = true) (hmask : fieldTop r.mask = 0xF#4) :
    fieldTop op = fieldTop r.bits := by
  rw [← (r.fits_iff op).1 h, fieldTop_and, hmask]
  exact BitVec.and_allOnes.symm

theorem fieldN_of_fits {r : OpcodeRow} {op : Word} (h : r.fits op = true) (hmask : fieldN r.mask = 0xF#4) :
    fieldN op = fieldN r.bits := by
  rw [← (r.fits_iff op).1 h, fieldN_and, hmask]
  exact BitVec.and_allOnes.symm

theorem fieldNN_of_fits {r : OpcodeRow} {op : Word} (h : r.fits op = true) (hmask : fieldNN r.mask = 0xFF#8) :
    fieldNN op = fieldNN r.bits := by
  rw [← (r.fits_iff op).1 h, fieldNN_and, hmask]
  exact BitVec.and_allOnes.symm

/-- Two rows whose bits agree wherever both masks look: only such rows can fit one word. -/
abbrev OpcodeRow.Overlaps (r q : OpcodeRow) : Prop := r.bits &&& q.mask = q.bits &&& r.mask

theorem OpcodeRow.overlaps_of_fits {r q : OpcodeRow} {op : Word} (hr : r.fits op = true) (hq : q.fits op = true) :
    r.Overlaps q := by
  rw [OpcodeRow.fits_iff] at hr hq
  rw [OpcodeRow.Overlaps, ← hr, ← hq, BitVec.and_assoc, BitVec.and_assoc, BitVec.and_comm r.mask]

/-- Two rows of R75 overlap only when one of them is `0NNN` (R74). -/
theorem overlaps_only_sys : ∀ r ∈ opcodeMap, ∀ q ∈ opcodeMap, r.Overlaps q →
    r = q ∨ r = rowOf (.sys 0) ∨ q = rowOf (.sys 0) := by
  decide

/-- Of the rows that overlap one other than `0NNN`, the row itself comes first in R75's order (R74). -/
theorem find?_overlaps : ∀ r ∈ opcodeMap, r ≠ rowOf (.sys 0) → opcodeMap.find? (fun q => q.Overlaps r) = some r := by
  decide

theorem rowOf_mem_opcodeMap (i : Instr) : rowOf i ∈ opcodeMap := by
  cases i <;> simp [opcodeMap, rowOf]

theorem exists_rowOf_of_mem_opcodeMap {r : OpcodeRow} (h : r ∈ opcodeMap) : ∃ i, rowOf i = r := by
  simp only [opcodeMap, List.mem_append, List.mem_map] at h
  obtain ((⟨i, -, hi⟩ | ⟨i, -, hi⟩) | ⟨i, -, hi⟩) | ⟨i, -, hi⟩ := h <;> exact ⟨i, hi⟩

theorem fits_encode (i : Instr) : (rowOf i).fits (encode i) = true := by
  cases i with
  | cls => exact Laws.MeetsItsRow.cls
  | ret => exact Laws.MeetsItsRow.ret
  | sys nnn | jp nnn | call nnn | ldI nnn | jpV0 nnn => exact Laws.MeetsItsRow.fits_packNNN _ _ _
  | seImm x nn | sneImm x nn | ldImm x nn | addImm x nn | rnd x nn => exact Laws.MeetsItsRow.fits_packXNN _ _ _ _
  | seReg x y | ldReg x y | orReg x y | andReg x y | xorReg x y | addReg x y | subReg x y | shr x y | subnReg x y
  | shl x y | sneReg x y => exact Laws.MeetsItsRow.fits_packXYF _ _ _ _ _
  | drw x y n => exact Laws.MeetsItsRow.drw x y n
  | skp x | sknp x | ldVxDT x | ldVxK x | ldDTVx x | ldSTVx x | addI x | ldF x | ldB x | storeRegs x | loadRegs x =>
    exact Laws.MeetsItsRow.fits_packXFF _ _ _ _

/-- The first element of a list with a property is the first with any stronger property it has. -/
theorem find?_eq_some_of_stronger {α : Type} {l : List α} {p q : α → Bool} {a : α} (hq : l.find? q = some a)
    (ha : p a = true) (hpq : ∀ b, p b = true → q b = true) : l.find? p = some a := by
  rw [List.find?_eq_some_iff_append] at hq ⊢
  obtain ⟨-, as, bs, hl, has⟩ := hq
  refine ⟨ha, as, bs, hl, fun b hb => ?_⟩
  have hqb : q b ≠ true := by simpa using has b hb
  simpa using mt (hpq b) hqb

/-- A row with the full mask fits one word. -/
theorem eq_bits_of_fits {r : OpcodeRow} {op : Word} (h : r.fits op = true) (hmask : r.mask = 0xFFFF#16) :
    op = r.bits := by
  rw [← (r.fits_iff op).1 h, hmask]
  exact BitVec.and_allOnes.symm

/-- The rows before `0NNN` do not fit a `SYS` word, which decodes as neither `CLS` nor `RET` (R74). -/
theorem find?_fits_encode_sys {nnn : Imm12} (hwf : (Instr.sys nnn).wellFormed = true) :
    opcodeMap.find? (fun r => r.fits (encode (.sys nnn))) = some (rowOf (.sys nnn)) := by
  have hdecode : decodeWord (encode (.sys nnn)) = .ok (.sys nnn) := decodeWord_encode hwf
  have hcls : (rowOf .cls).fits (encode (.sys nnn)) = false := Bool.eq_false_iff.2 fun h => by
    rw [eq_bits_of_fits h rfl] at hdecode
    cases hdecode
  have hret : (rowOf .ret).fits (encode (.sys nnn)) = false := Bool.eq_false_iff.2 fun h => by
    rw [eq_bits_of_fits h rfl] at hdecode
    cases hdecode
  rw [show opcodeMap = rowOf .cls :: rowOf .ret :: rowOf (.sys nnn) :: opcodeMap.drop 3 from rfl]
  simp only [List.find?_cons, hcls, hret, fits_encode (.sys nnn)]

/-- The first row that the encoding of an instruction fits is its own. -/
theorem find?_fits_encode {i : Instr} (hwf : i.wellFormed = true) :
    opcodeMap.find? (fun r => r.fits (encode i)) = some (rowOf i) := by
  by_cases hsys : rowOf i = rowOf (.sys 0)
  · cases i with
    | sys nnn => exact find?_fits_encode_sys hwf
    | _ => simp [rowOf] at hsys
  · exact find?_eq_some_of_stronger (find?_overlaps _ (rowOf_mem_opcodeMap i) hsys) (fits_encode i)
      fun q hq => decide_eq_true (OpcodeRow.overlaps_of_fits hq (fits_encode i))

/-- Every word with `top = 0` decodes (R74). -/
theorem decode0_ok (op : Word) : ∃ j, decode0 op = .ok j := by
  unfold decode0
  split
  · exact ⟨_, rfl⟩
  · split <;> exact ⟨_, rfl⟩

/-- A word that fits a row of R75 decodes: the fields its mask keeps are the ones the decoder tests. -/
theorem decodeWord_of_fits {i : Instr} {op : Word} (h : (rowOf i).fits op = true) : ∃ j, decodeWord op = .ok j := by
  cases i with
  | cls | ret => exact eq_bits_of_fits h rfl ▸ ⟨_, rfl⟩
  | sys nnn =>
    simp only [rowOf] at h
    unfold decodeWord
    simp only [fieldTop_of_fits h rfl]
    exact decode0_ok op
  | jp | call | seImm | sneImm | ldImm | addImm | ldI | jpV0 | rnd | drw =>
    simp only [rowOf] at h
    unfold decodeWord
    simp only [fieldTop_of_fits h rfl]
    exact ⟨_, rfl⟩
  | seReg | sneReg =>
    simp only [rowOf] at h
    unfold decodeWord
    simp only [fieldTop_of_fits h rfl, fieldN_of_fits h rfl]
    exact ⟨_, rfl⟩
  | ldReg | orReg | andReg | xorReg | addReg | subReg | shr | subnReg | shl =>
    simp only [rowOf] at h
    unfold decodeWord decode8
    simp only [fieldTop_of_fits h rfl, fieldN_of_fits h rfl]
    exact ⟨_, rfl⟩
  | skp | sknp | ldVxDT | ldVxK | ldDTVx | ldSTVx | addI | ldF | ldB | storeRegs | loadRegs =>
    simp only [rowOf] at h
    unfold decodeWord decodeE decodeF
    simp only [fieldTop_of_fits h rfl, fieldNN_of_fits h rfl]
    exact ⟨_, rfl⟩

/-- Settles O3: a word that decodes is an encoding, whose first row is its own; a word that fits a row decodes; and rows
that fit one word overlap. -/
theorem decoderFollowsTheOpcodeMap : Obligations.DecoderFollowsTheOpcodeMap := by
  intro op
  refine ⟨fun i hi => ?_, fun e he => ⟨Machine.decodeWord_error he, ?_⟩, fun r hr q hq hrop hqop => ?_⟩
  · obtain ⟨rfl, hwf⟩ := encodedBy_of_decodeWord hi
    exact find?_fits_encode hwf
  · rw [List.find?_eq_none]
    intro r hr hfits
    obtain ⟨i, rfl⟩ := exists_rowOf_of_mem_opcodeMap hr
    obtain ⟨j, hj⟩ := decodeWord_of_fits hfits
    cases he.symm.trans hj
  · exact overlaps_only_sys r hr q hq (OpcodeRow.overlaps_of_fits hrop hqop)

/-- Settles O4: each word is evaluated. -/
theorem wordsOfEachFormatDecode : Obligations.WordsOfEachFormatDecode := by
  unfold Obligations.WordsOfEachFormatDecode
  decide

end Sys2Proof
end

