-- ==== Sys2Proof/Proofs/Frames.lean ====
section
/-! Frames (R9, R61): one data-level frame for every named update of the state, from which the statements' frame
`OnlyChanges` follows, and the entry of a fault (R200). -/

namespace Sys2Proof.Machine

/-- From `s` to `t` every field outside the parts listed is the same data. It says more than `OnlyChanges`, which
compares what memory, screen and registers read as. -/
structure KeepsOutside (ps : List Part) (s t : State) : Prop where
  registers : .registers ∉ ps → t.v = s.v := by simp
  pc : .pc ∉ ps → t.pc = s.pc := by simp
  index : .index ∉ ps → t.I = s.I := by simp
  stack : .stack ∉ ps → t.sp = s.sp ∧ t.stack = s.stack := by simp
  delayTimer : .delayTimer ∉ ps → t.dt = s.dt := by simp
  soundTimer : .soundTimer ∉ ps → t.st = s.st := by simp
  keypad : .keypad ∉ ps → t.key = s.key := by simp
  screen : .screen ∉ ps → t.fb = s.fb := by simp
  redraw : .redraw ∉ ps → t.redraw = s.redraw := by simp
  error : .error ∉ ps → t.err = s.err ∧ t.errInfo = s.errInfo := by simp
  memory : .memory ∉ ps → t.mem = s.mem := by simp
  draws : .draws ∉ ps → t.draws = s.draws := by simp

theorem KeepsOutside.onlyChanges {ps : List Part} {s t : State} (h : KeepsOutside ps s t) : OnlyChanges ps s t := by
  intro p hp
  cases p with
  | registers => exact fun r => by unfold State.getV; rw [h.registers hp]
  | pc => exact h.pc hp
  | index => exact h.index hp
  | stack => exact ⟨(h.stack hp).1, fun k => by unfold State.slot; rw [(h.stack hp).2]⟩
  | delayTimer => exact h.delayTimer hp
  | soundTimer => exact h.soundTimer hp
  | keypad => exact fun k => by unfold State.keyIsDown; rw [h.keypad hp]
  | screen => exact fun c _ => by unfold State.cell; rw [h.screen hp]
  | redraw => exact h.redraw hp
  | error => exact h.error hp
  | memory => exact fun a => by unfold State.readByte; rw [h.memory hp]
  | draws => exact h.draws hp

theorem KeepsOutside.refl (ps : List Part) (s : State) : KeepsOutside ps s s := {}

theorem KeepsOutside.trans {ps : List Part} {s t u : State} (h : KeepsOutside ps s t) (k : KeepsOutside ps t u) :
    KeepsOutside ps s u where
  registers hp := (k.registers hp).trans (h.registers hp)
  pc hp := (k.pc hp).trans (h.pc hp)
  index hp := (k.index hp).trans (h.index hp)
  stack hp := ⟨(k.stack hp).1.trans (h.stack hp).1, (k.stack hp).2.trans (h.stack hp).2⟩
  delayTimer hp := (k.delayTimer hp).trans (h.delayTimer hp)
  soundTimer hp := (k.soundTimer hp).trans (h.soundTimer hp)
  keypad hp := (k.keypad hp).trans (h.keypad hp)
  screen hp := (k.screen hp).trans (h.screen hp)
  redraw hp := (k.redraw hp).trans (h.redraw hp)
  error hp := ⟨(k.error hp).1.trans (h.error hp).1, (k.error hp).2.trans (h.error hp).2⟩
  memory hp := (k.memory hp).trans (h.memory hp)
  draws hp := (k.draws hp).trans (h.draws hp)

theorem KeepsOutside.mono {ps qs : List Part} {s t : State} (h : KeepsOutside ps s t) (hsub : ps ⊆ qs) :
    KeepsOutside qs s t where
  registers hq := h.registers (mt (hsub ·) hq)
  pc hq := h.pc (mt (hsub ·) hq)
  index hq := h.index (mt (hsub ·) hq)
  stack hq := h.stack (mt (hsub ·) hq)
  delayTimer hq := h.delayTimer (mt (hsub ·) hq)
  soundTimer hq := h.soundTimer (mt (hsub ·) hq)
  keypad hq := h.keypad (mt (hsub ·) hq)
  screen hq := h.screen (mt (hsub ·) hq)
  redraw hq := h.redraw (mt (hsub ·) hq)
  error hq := h.error (mt (hsub ·) hq)
  memory hq := h.memory (mt (hsub ·) hq)
  draws hq := h.draws (mt (hsub ·) hq)

/-! ### The frame of each update -/

theorem State.setV_frame (s : State) (x : RegIdx) (b : Byte) : KeepsOutside [.registers] s (s.setV x b) := {}
theorem State.jump_frame (s : State) (w : Word) : KeepsOutside [.pc] s (s.jump w) := {}
theorem State.rewind_frame (s : State) : KeepsOutside [.pc] s s.rewind := {}
theorem State.setI_frame (s : State) (w : Word) : KeepsOutside [.index] s (s.setI w) := {}
theorem State.setDT_frame (s : State) (b : Byte) : KeepsOutside [.delayTimer] s (s.setDT b) := {}
theorem State.setST_frame (s : State) (b : Byte) : KeepsOutside [.soundTimer] s (s.setST b) := {}
theorem State.setKey_frame (s : State) (k : KeyIdx) (d : Bool) : KeepsOutside [.keypad] s (s.setKey k d) := {}
theorem State.writeBytes_frame (s : State) (a : Nat) (bs : List Byte) :
    KeepsOutside [.memory] s (s.writeBytes a bs) := {}
theorem State.latch_frame (s : State) (f : Fault) (n : Nat) : KeepsOutside [.error] s (s.latch f n) := {}
theorem State.advance_frame (s : State) : KeepsOutside [.pc, .redraw] s s.advance := {}

theorem State.skipIf_frame (s : State) (c : Bool) : KeepsOutside [.pc] s (s.skipIf c) := by
  cases c with
  | false => exact .refl _ s
  | true => exact s.jump_frame (s.pc + 2#16)

theorem flagThenResult_keepsOutside (x : RegIdx) (flag : Byte) (result : State → Byte) (s : State) :
    KeepsOutside [.registers] s (flagThenResult x flag result s) :=
  (s.setV_frame vf flag).trans (State.setV_frame _ x _)

theorem loadRegList_keepsOutside (rs : List RegIdx) (s : State) : KeepsOutside [.registers] s (loadRegList rs s) := by
  obtain ⟨v, hv⟩ := loadRegList_frame rs s
  rw [hv]
  exact {}

theorem SameButVFAndCells.keepsOutside {s t : State} (h : SameButVFAndCells s t) :
    KeepsOutside [.registers, .screen] s t := by
  rw [h.rest]
  exact {}

/-! ### The entry of a fault (R200) -/

theorem State.latch_entersFault (s : State) (f : Fault) (n : Nat) : EntersFault f n s (s.latch f n) :=
  ⟨s.latch_err f n, BitVec.toNat_ofNat .., (s.latch_frame f n).onlyChanges⟩

/-! ### The stack after a push (R24) -/

/-- The slot at `sp` holds the word pushed, every other slot what it held. -/
theorem State.slot_pushed (s : State) (w : Word) (hsp : s.sp.val < 12) (sp : StackCount) (pc : PcWord) (j : Fin 12) :
    ({ s with stack := s.stack.set s.sp.val w hsp, sp := sp, pc := pc } : State).slot j =
      if j.val = s.sp.val then w else s.slot j := by
  unfold State.slot
  show (s.stack.set s.sp.val w hsp)[j.val] = _
  rw [Vector.getElem_set]
  simp only [eq_comm (a := j.val)]
  rfl

end Sys2Proof.Machine
end

