-- ==== Sys2Proof/Proofs/Outcomes.lean ====
section
/-! The outcomes of an instruction (`40_step_cycle.md` R94, `60_exceptions.md` R200, R202): every instruction answers a
next state, in which it has either completed within its frame or latched the one fault R202 gives it. -/

namespace Sys2Proof.Machine

/-! ### The remaining meanings with one ending, as equations -/

theorem exec_cls (s : State) :
    exec .cls s = .next (s.clearCells.setRedraw (if Config.clsSetsRedraw then true else s.redraw)) := rfl

theorem exec_sys (nnn : Imm12) (s : State) :
    exec (.sys nnn) s = .next (s.latch .unsupportedOpcode (encode (.sys nnn)).toNat) := rfl

theorem exec_jpV0 (nnn : Imm12) (s : State) :
    exec (.jpV0 nnn) s = .next (s.jump (wordOfImm nnn + wordOfByte (s.getV 0))) := rfl

theorem exec_orReg (x y : RegIdx) (s : State) :
    exec (.orReg x y) s = .next (s.setV x (s.getV x ||| s.getV y)) := rfl

theorem exec_andReg (x y : RegIdx) (s : State) :
    exec (.andReg x y) s = .next (s.setV x (s.getV x &&& s.getV y)) := rfl

theorem exec_xorReg (x y : RegIdx) (s : State) :
    exec (.xorReg x y) s = .next (s.setV x (s.getV x ^^^ s.getV y)) := rfl

theorem exec_addReg (x y : RegIdx) (s : State) : exec (.addReg x y) s =
    .next (flagThenResult x (carryFlag (s.getV x) (s.getV y)) (fun t => t.getV x + t.getV y) s) := rfl

theorem exec_subReg (x y : RegIdx) (s : State) : exec (.subReg x y) s =
    .next (flagThenResult x (greaterFlag (s.getV x) (s.getV y)) (fun t => t.getV x - t.getV y) s) := rfl

theorem exec_subnReg (x y : RegIdx) (s : State) : exec (.subnReg x y) s =
    .next (flagThenResult x (greaterFlag (s.getV y) (s.getV x)) (fun t => t.getV y - t.getV x) s) := rfl

theorem exec_shr (x y : RegIdx) (s : State) : exec (.shr x y) s =
    .next (flagThenResult x (lowBitFlag (s.getV x)) (fun t => t.getV x >>> 1) s) := rfl

theorem exec_shl (x y : RegIdx) (s : State) : exec (.shl x y) s =
    .next (flagThenResult x (highBitFlag (s.getV x)) (fun t => t.getV x <<< 1) s) := rfl

theorem exec_rnd (x : RegIdx) (nn : Byte) (s : State) : exec (.rnd x nn) s =
    .next (({ s with draws := s.draws + 1 } : State).setV x (Config.randomByte s.draws &&& nn)) := rfl

theorem exec_addI (x : RegIdx) (s : State) :
    exec (.addI x) s = .next (s.setI (s.I + wordOfByte (s.getV x))) := rfl

/-! ### Every instruction answers a next state (R94) -/

theorem withDataRange_next (len : Nat) (s : State) (effect : State → State) :
    ∃ t, withDataRange len s effect = .next t := by
  unfold withDataRange
  split <;> exact ⟨_, rfl⟩

theorem exec_next (i : Instr) (s : State) : ∃ t, exec i s = .next t := by
  cases i with
  | ret =>
    by_cases h : s.sp.val = 0
    · exact ⟨_, exec_ret_empty h⟩
    · exact ⟨_, exec_ret_pops (k := ⟨s.sp.val - 1, by omega⟩) (show s.sp.val = s.sp.val - 1 + 1 by omega)⟩
  | call nnn =>
    by_cases h : s.sp.val = 12
    · exact ⟨_, exec_call_full h⟩
    · exact ⟨_, exec_call_pushes (show s.sp.val < 12 by omega)⟩
  | skp x =>
    by_cases h : 15 < (s.getV x).toNat
    · exact ⟨_, exec_skp_faults h⟩
    · exact ⟨_, exec_skp_key (k := ⟨(s.getV x).toNat, by omega⟩) rfl⟩
  | sknp x =>
    by_cases h : 15 < (s.getV x).toNat
    · exact ⟨_, exec_sknp_faults h⟩
    · exact ⟨_, exec_sknp_key (k := ⟨(s.getV x).toNat, by omega⟩) rfl⟩
  | ldVxK x =>
    cases h : s.scanKeys with
    | none => exact ⟨_, exec_ldVxK_none h⟩
    | some k => exact ⟨_, exec_ldVxK_key h⟩
  | drw | ldB | storeRegs | loadRegs =>
    simp only [exec, execDrw, execLdB, execStoreRegs, execLoadRegs, withDataRange_next]
  | _ => exact ⟨_, rfl⟩

/-- Settles O43: a step of a running core within memory is an instruction or the entry of a fault, and any other step
is one of the two cases of `step_cases` that run nothing. -/
theorem everyInstructionAnswersANextState : Obligations.EveryInstructionAnswersANextState := by
  refine ⟨exec_next, fun s => ?_⟩
  by_cases herr : s.err = none
  · by_cases hpc : s.pc.toNat ≤ 0x0FFE
    · cases hdecode : decodeWord s.fetchWord with
      | ok i => rw [step_running herr hpc hdecode]; exact exec_next i s.advance
      | error e => exact ⟨_, step_unknown herr hpc hdecode⟩
    · exact ⟨_, step_beyond herr (by omega)⟩
  · exact ⟨_, step_halted herr⟩

/-! ### The two ways an instruction ends -/

/-- An instruction that has completed: its frame without the error latch, and of the registers only those it may
write. -/
structure Completes (i : Instr) (s t : State) : Prop where
  frame : KeepsOutside ((writableParts i).erase .error) s t
  registers : ∀ r, ¬ mayWrite i r → t.getV r = s.getV r

/-- Why an instruction raises a fault, and the information it records (R191, R195 to R198). -/
def FaultCause (i : Instr) (s : State) (f : Fault) (info : Nat) : Prop :=
  match f with
  | .unsupportedOpcode => info = (encode i).toNat
  | .dataAddressOutOfRange => info = max s.I.toNat 0x1000
  | .stackOverflow => info = (encode i).toNat ∧ s.sp.val = 12
  | .stackUnderflow => info = (encode i).toNat ∧ s.sp.val = 0
  | .keyIndexOutOfRange => ∃ x, (i = .skp x ∨ i = .sknp x) ∧ info = (s.getV x).toNat ∧ 15 < (s.getV x).toNat
  | .unknownOpcode | .programTooLarge | .fetchOutOfRange => False

/-- An instruction that has latched a fault R202 gives it, for its cause, and has done nothing else (R200). -/
def Faults (i : Instr) (s t : State) : Prop :=
  ∃ f info, raisable i f ∧ FaultCause i s f info ∧ t = s.latch f info

theorem KeepsOutside.getV {ps : List Part} {s t : State} (h : KeepsOutside ps s t) (hp : .registers ∉ ps) (r : RegIdx) :
    t.getV r = s.getV r := h.onlyChanges .registers hp r

theorem completes_setV {i : Instr} {s : State} (x : RegIdx) (b : Byte)
    (hparts : (writableParts i).erase .error = [.registers]) (hmay : mayWrite i x) : Completes i s (s.setV x b) where
  frame := hparts ▸ s.setV_frame x b
  registers r hr := by
    have hne : r ≠ x := fun h => hr (h ▸ hmay)
    rw [State.setV_getV, if_neg hne]

theorem completes_flagThenResult {i : Instr} {s : State} (x : RegIdx) (flag : Byte) (result : State → Byte)
    (hparts : (writableParts i).erase .error = [.registers]) (hmay : ∀ r, r = x ∨ r = vf → mayWrite i r) :
    Completes i s (flagThenResult x flag result s) where
  frame := hparts ▸ flagThenResult_keepsOutside x flag result s
  registers r hr := by
    have hx : r ≠ x := fun h => hr (hmay r (.inl h))
    have hvf : r ≠ vf := fun h => hr (hmay r (.inr h))
    rw [flagThenResult_getV, if_neg hx, if_neg hvf]

/-- An instruction that cannot write a register has completed once its frame is kept. -/
theorem completes_of_frame {i : Instr} {ps : List Part} {s t : State} (h : KeepsOutside ps s t)
    (hparts : (writableParts i).erase .error = ps) (hreg : .registers ∉ ps := by simp) : Completes i s t :=
  ⟨hparts ▸ h, fun r _ => h.getV hreg r⟩

/-- The fault of the four instructions over a data range (R195). -/
theorem faults_dataAddress {i : Instr} {s : State} (h : raisable i .dataAddressOutOfRange) :
    Faults i s (s.latch .dataAddressOutOfRange (max s.I.toNat 4096)) := ⟨_, _, h, rfl, rfl⟩

theorem toNat_encode_call (nnn : Imm12) : (encode (.call nnn)).toNat = 0x2000 + nnn.toNat := toNat_packNNN 2#4 nnn

/-- Everything an instruction can do, said once: it has completed or it has faulted. -/
theorem exec_ends {i : Instr} {s t : State} (h : exec i s = .next t) : Completes i s t ∨ Faults i s t := by
  cases i with
  | cls => cases h; exact .inl (completes_of_frame (ps := [.screen, .redraw]) {} rfl)
  | sys nnn => cases h; exact .inr ⟨_, _, rfl, rfl, rfl⟩
  | jp | jpV0 => cases h; exact .inl (completes_of_frame (s.jump_frame _) rfl)
  | seImm | sneImm | seReg | sneReg => cases h; exact .inl (completes_of_frame (s.skipIf_frame _) rfl)
  | ldImm | addImm | ldReg | orReg | andReg | xorReg | ldVxDT => cases h; exact .inl (completes_setV _ _ rfl rfl)
  | addReg | subReg | shr | subnReg | shl =>
    cases h; exact .inl (completes_flagThenResult _ _ _ rfl fun _ hr => hr)
  | ldI | addI | ldF => cases h; exact .inl (completes_of_frame (s.setI_frame _) rfl)
  | ldDTVx => cases h; exact .inl (completes_of_frame (s.setDT_frame _) rfl)
  | ldSTVx => cases h; exact .inl (completes_of_frame (s.setST_frame _) rfl)
  | rnd x nn =>
    cases h
    have hframe : KeepsOutside [.registers, .draws] s
        (({ s with draws := s.draws + 1 } : State).setV x (Config.randomByte s.draws &&& nn)) := {}
    exact .inl ⟨hframe, fun r hr => (State.setV_getV ..).trans (if_neg hr)⟩
  | ret =>
    obtain ⟨hsp, rfl⟩ | ⟨k, -, rfl⟩ := exec_ret_cases h
    · exact .inr ⟨_, _, rfl, ⟨rfl, hsp⟩, rfl⟩
    · exact .inl (completes_of_frame (ps := [.pc, .stack]) {} rfl)
  | call nnn =>
    obtain ⟨hsp, rfl⟩ | ⟨k, rfl⟩ := exec_call_cases h
    · exact .inr ⟨_, _, rfl, ⟨(toNat_encode_call nnn).symm, hsp⟩, rfl⟩
    · exact .inl (completes_of_frame (ps := [.pc, .stack]) {} rfl)
  | skp x =>
    obtain ⟨hx, rfl⟩ | ⟨k, -, rfl⟩ := exec_skp_cases h
    · exact .inr ⟨_, _, rfl, ⟨x, .inl rfl, rfl, hx⟩, rfl⟩
    · exact .inl (completes_of_frame (s.skipIf_frame _) rfl)
  | sknp x =>
    obtain ⟨hx, rfl⟩ | ⟨k, -, rfl⟩ := exec_sknp_cases h
    · exact .inr ⟨_, _, rfl, ⟨x, .inr rfl, rfl, hx⟩, rfl⟩
    · exact .inl (completes_of_frame (s.skipIf_frame _) rfl)
  | ldVxK x =>
    obtain ⟨-, rfl⟩ | ⟨k, -, rfl⟩ := exec_ldVxK_cases h
    · exact .inl ⟨s.rewind_frame.mono (by simp [writableParts]), fun r _ => s.rewind_getV r⟩
    · exact .inl ⟨(s.setV_frame x _).mono (by simp [writableParts]), fun r hr => (s.setV_getV ..).trans (if_neg hr)⟩
  | drw x y n =>
    obtain ⟨-, -, rfl⟩ | ⟨-, rfl⟩ := exec_drw_cases h
    · exact .inr (faults_dataAddress rfl)
    · have hdraw : SameButVFAndCells s (drawRows x y n.toNat (s.setV vf 0#8)) :=
        (SameButVFAndCells.setVF s 0#8).trans (drawRows_frame x y n.toNat _)
      have hframe : KeepsOutside [.registers, .screen, .redraw] s
          ((drawRows x y n.toNat (s.setV vf 0#8)).setRedraw true) :=
        (hdraw.keepsOutside.mono (by simp)).trans {}
      exact .inl ⟨hframe, fun r hr => hdraw.registers r hr⟩
  | ldB x =>
    obtain ⟨-, rfl⟩ | ⟨-, rfl⟩ := exec_ldB_cases h
    · exact .inr (faults_dataAddress rfl)
    · exact .inl (completes_of_frame (s.writeBytes_frame _ _) rfl)
  | storeRegs x =>
    obtain ⟨-, rfl⟩ | ⟨-, rfl⟩ := exec_storeRegs_cases h
    · exact .inr (faults_dataAddress rfl)
    · exact .inl (completes_of_frame (s.writeBytes_frame _ _) rfl)
  | loadRegs x =>
    obtain ⟨-, rfl⟩ | ⟨-, rfl⟩ := exec_loadRegs_cases h
    · exact .inr (faults_dataAddress rfl)
    · exact .inl ⟨loadRegList_keepsOutside _ s, fun r hr => by
        rw [loadRegList_getV, if_neg (mt (mem_regsUpTo x r).1 hr)]⟩

/-- A fault an instruction can raise is in its frame. -/
theorem error_mem_writableParts {i : Instr} {f : Fault} (h : raisable i f) : .error ∈ writableParts i := by
  cases i with
  | ret | sys | call | drw | skp | sknp | ldB | storeRegs | loadRegs => simp [writableParts]
  | _ => exact h.elim

/-- The data frame of every instruction. -/
theorem exec_frame {i : Instr} {s t : State} (h : exec i s = .next t) : KeepsOutside (writableParts i) s t := by
  obtain hdone | ⟨f, info, hf, -, rfl⟩ := exec_ends h
  · exact hdone.frame.mono List.erase_subset
  · exact (s.latch_frame f info).mono (by simpa using error_mem_writableParts hf)

/-- Settles O42: completed or faulted, an instruction keeps its frame, and a fault writes no register. -/
theorem everyInstructionKeepsItsFrame : Obligations.EveryInstructionKeepsItsFrame := by
  intro i s t h
  refine ⟨(exec_frame h).onlyChanges, fun r hr => ?_⟩
  obtain hdone | ⟨f, info, -, -, rfl⟩ := exec_ends h
  · exact hdone.registers r hr
  · exact s.latch_getV f info r

/-- A completed instruction leaves the error latch as it found it. -/
theorem Completes.err {i : Instr} {s t : State} (h : Completes i s t) : t.err = s.err :=
  (h.frame.error (by cases i <;> simp [writableParts])).1

/-- Settles O44: an instruction that has not completed has latched its own fault and done nothing else. -/
theorem aFaultingInstructionWritesNothingElse : Obligations.AFaultingInstructionWritesNothingElse := by
  intro i s t herr h
  obtain hdone | ⟨f, info, hf, -, rfl⟩ := exec_ends h
  · exact .inl (hdone.err.trans herr)
  · exact .inr ⟨f, hf, s.latch_err f info, (s.latch_frame f info).onlyChanges⟩

end Sys2Proof.Machine
end

