-- ==== Sys2Proof/Proofs/Invariants.lean ====
section
/-! The invariant of the machine (R22, R24, R50): what an instruction does to memory's form, to `pc` and to the valid
stack entries, then every step, every host operation and every execution. -/

namespace Sys2Proof.Machine

/-! ### What an instruction keeps of the invariant -/

theorem exec_keeps_memory_wf {i : Instr} {s t : State} (hmem : s.mem.wf = true) (h : exec i s = .next t) :
    t.mem.wf = true := by
  by_cases hpart : .memory ∈ writableParts i
  · cases i with
    | ldB x =>
      obtain ⟨-, rfl⟩ | ⟨hfits, rfl⟩ := exec_ldB_cases h
      · exact hmem
      · exact Memory.wf_writeBytes _ _ hmem (show s.I.toNat + 0 + 3 ≤ 4096 by omega)
    | storeRegs x =>
      obtain ⟨-, rfl⟩ | ⟨hfits, rfl⟩ := exec_storeRegs_cases h
      · exact hmem
      · refine Memory.wf_writeBytes _ _ hmem ?_
        rw [List.length_map, length_regsUpTo]
        show s.I.toNat + 0 + (x.val + 1) ≤ 4096
        omega
    | _ => simp [writableParts] at hpart
  · rw [(exec_frame h).memory hpart]
    exact hmem

/-- The valid entries of the stack are addresses some call pushed (R24, R123). -/
def State.StackInRange (s : State) : Prop :=
  ∀ k : Fin 12, k.val < s.sp.val → 2 ≤ (s.slot k).toNat ∧ (s.slot k).toNat ≤ 0x1000

/-- A call pushes the advanced `pc`, a return leaves fewer valid entries, and no other instruction writes the stack. -/
theorem exec_keeps_stackInRange {i : Instr} {s t : State} (hlow : 2 ≤ s.pc.toNat) (hhigh : s.pc.toNat ≤ 0x1000)
    (hstack : s.StackInRange) (h : exec i s = .next t) : t.StackInRange := by
  intro j hj
  by_cases hpart : .stack ∈ writableParts i
  · cases i with
    | ret =>
      obtain ⟨-, rfl⟩ | ⟨k, hk, rfl⟩ := exec_ret_cases h
      · exact hstack j hj
      · exact hstack j (show j.val < s.sp.val by have : j.val < k.val := hj; omega)
    | call nnn =>
      obtain ⟨-, rfl⟩ | ⟨hsp, rfl⟩ := exec_call_cases h
      · exact hstack j hj
      · have hj : j.val < s.sp.val + 1 := hj
        rw [State.slot_pushed]
        split
        · exact ⟨hlow, hhigh⟩
        · exact hstack j (by omega)
    | _ => simp [writableParts] at hpart
  · obtain ⟨hsp, hslots⟩ := (exec_frame h).stack hpart
    unfold State.slot
    rw [hslots]
    exact hstack j (hsp ▸ hj)

theorem toNat_wordOfByte (b : Byte) : (wordOfByte b).toNat = b.toNat := BitVec.toNat_setWidth_of_le (by decide)

/-- A 12-bit immediate and a byte add up without wrapping (R128). -/
theorem toNat_wordOfImm_add_wordOfByte (nnn : Imm12) (b : Byte) :
    (wordOfImm nnn + wordOfByte b).toNat = nnn.toNat + b.toNat := by
  rw [BitVec.toNat_add, toNat_wordOfImm, toNat_wordOfByte]
  omega

theorem State.toNat_skipIf_pc_le {s : State} (c : Bool) (h : s.pc.toNat ≤ 0x1000) :
    (s.skipIf c).pc.toNat ≤ 0x1002 := by
  cases c with
  | false => exact Nat.le_succ_of_le (Nat.le_succ_of_le h)
  | true =>
    show (s.pc + 2#16).toNat ≤ 0x1002
    bv_omega

/-- The largest `pc` is that of `BNNN`, 0xFFF + 0xFF (R22). -/
theorem exec_pc_le {i : Instr} {s t : State} (hlow : 2 ≤ s.pc.toNat) (hhigh : s.pc.toNat ≤ 0x1000)
    (hstack : s.StackInRange) (h : exec i s = .next t) : t.pc.toNat ≤ 0x10FE := by
  have hskip (c : Bool) : (s.skipIf c).pc.toNat ≤ 0x10FE := (State.toNat_skipIf_pc_le c hhigh).trans (by decide)
  by_cases hpart : .pc ∈ writableParts i
  · cases i with
    | ret =>
      obtain ⟨-, rfl⟩ | ⟨k, hk, rfl⟩ := exec_ret_cases h
      · exact hhigh.trans (by decide)
      · exact (hstack k (by omega)).2.trans (by decide)
    | call nnn =>
      obtain ⟨-, rfl⟩ | ⟨-, rfl⟩ := exec_call_cases h
      · exact hhigh.trans (by decide)
      · show (wordOfImm nnn).toNat ≤ 0x10FE
        rw [toNat_wordOfImm]
        omega
    | jp nnn =>
      cases h
      rw [State.jump_pc, toNat_wordOfImm]
      omega
    | jpV0 nnn =>
      cases h
      rw [State.jump_pc, toNat_wordOfImm_add_wordOfByte]
      omega
    | seImm | sneImm | seReg | sneReg => cases h; exact hskip _
    | skp x =>
      obtain ⟨-, rfl⟩ | ⟨k, -, rfl⟩ := exec_skp_cases h
      · exact hhigh.trans (by decide)
      · exact hskip _
    | sknp x =>
      obtain ⟨-, rfl⟩ | ⟨k, -, rfl⟩ := exec_sknp_cases h
      · exact hhigh.trans (by decide)
      · exact hskip _
    | ldVxK x =>
      obtain ⟨-, rfl⟩ | ⟨k, -, rfl⟩ := exec_ldVxK_cases h
      · rw [State.rewind_pc, BitVec.toNat_sub_of_le (show 2#16 ≤ s.pc by bv_omega)]
        omega
      · exact hhigh.trans (by decide)
    | _ => simp [writableParts] at hpart
  · rw [(exec_frame h).pc hpart]
    exact hhigh.trans (by decide)

/-! ### Every operation keeps the invariant -/

/-- A fetch within memory leaves `pc` between 2 and 0x1000 (R53, R92). -/
theorem State.toNat_advance_pc {s : State} (h : s.pc.toNat ≤ 0x0FFE) : s.advance.pc.toNat = s.pc.toNat + 2 := by
  rw [State.advance_pc, BitVec.toNat_add]
  show (s.pc.toNat + 2) % 65536 = _
  omega

/-- Settles O49: of the four things a step can do only the run of an instruction needs an argument. -/
theorem everyStepKeepsTheInvariant : Obligations.EveryStepKeepsTheInvariant := by
  intro s t ⟨hmem, hpc, hstack⟩ h
  obtain ⟨-, rfl⟩ | ⟨-, -, rfl⟩ | ⟨-, hfetch, -, rfl⟩ | ⟨-, hfetch, i, -, hexec⟩ := step_cases h
  · exact ⟨hmem, hpc, hstack⟩
  · exact ⟨hmem, hpc, hstack⟩
  · refine ⟨hmem, ?_, hstack⟩
    rw [State.latch_pc, State.toNat_advance_pc hfetch]
    omega
  · have hlow : 2 ≤ s.advance.pc.toNat := by rw [State.toNat_advance_pc hfetch]; omega
    have hhigh : s.advance.pc.toNat ≤ 0x1000 := by rw [State.toNat_advance_pc hfetch]; omega
    exact ⟨exec_keeps_memory_wf (s := s.advance) hmem hexec, exec_pc_le hlow hhigh hstack hexec,
      exec_keeps_stackInRange hlow hhigh hstack hexec⟩

/-- A run of bytes within memory touches nothing of the invariant but memory, whose form it keeps. -/
theorem MachineInv.writeBytes {s : State} (h : MachineInv s) {a : Nat} {bs : List Byte} (hfits : a + bs.length ≤ 4096) :
    MachineInv (s.writeBytes a bs) := ⟨Memory.wf_writeBytes a bs h.memory hfits, h.pc, h.stack⟩

theorem perform_keeps_machineInv (o : Operation) (s t : State) (hinv : MachineInv s) (h : perform o s = .next t) :
    MachineInv t := by
  cases o with
  | step => exact everyStepKeepsTheInvariant s t hinv h
  | reset =>
    cases h
    exact ⟨hinv.memory, show (0x200#16).toNat ≤ 0x10FE by decide, fun k hk => absurd hk (Nat.not_lt_zero _)⟩
  | loadFonts =>
    cases h
    exact hinv.writeBytes (by rw [Vector.length_toList]; decide)
  | loadProgram bytes =>
    cases h
    unfold hostLoadProgram
    split
    next hlen =>
      refine hinv.writeBytes ?_
      simp only [Config.progBase, Config.progMaxLen] at *
      omega
    next => exact ⟨hinv.memory, hinv.pc, hinv.stack⟩
  | keyDown | keyUp | tickTimers => cases h; exact ⟨hinv.memory, hinv.pc, hinv.stack⟩

/-- Settles O50: every operation keeps the invariant, so every execution does. -/
theorem everyExecutionKeepsTheInvariant : Obligations.EveryExecutionKeepsTheInvariant :=
  fun _ _ _ => performAll_keeps perform_keeps_machineInv

/-- Settles O51: memory and stack are empty, and no fault is latched to report. -/
theorem resetMeetsTheInvariant : Obligations.ResetMeetsTheInvariant :=
  ⟨⟨rfl, by decide, fun k hk => absurd hk (Nat.not_lt_zero _)⟩, trivial, rfl⟩

end Sys2Proof.Machine
end

