-- ==== Sys2Proof/Proofs/Faults.lean ====
section
/-! Faults (`60_exceptions.md`): what the latch of a fault reports of its cause, who clears it, and what a step leaves
of `redraw`. -/

namespace Sys2Proof.Machine

/-! ### The report of a fault (R191 to R199) -/

theorem raisable_unsupportedOpcode {i : Instr} (h : raisable i .unsupportedOpcode) : ∃ nnn, i = .sys nnn := by
  cases i with
  | sys nnn => exact ⟨nnn, rfl⟩
  | _ => simp [raisable] at h

theorem raisable_stackOverflow {i : Instr} (h : raisable i .stackOverflow) : ∃ nnn, i = .call nnn := by
  cases i with
  | call nnn => exact ⟨nnn, rfl⟩
  | _ => simp [raisable] at h

theorem raisable_stackUnderflow {i : Instr} (h : raisable i .stackUnderflow) : i = .ret := by
  cases i with
  | ret => rfl
  | _ => simp [raisable] at h

/-- The information of a fault raised for a whole word is that word (R191, R196, R197). -/
theorem errInfo_latch_toNat (s : State) (f : Fault) (w : Word) : (s.latch f w.toNat).errInfo = w :=
  (BitVec.ofNat_toNat ..).trans (BitVec.setWidth_eq w)

/-- A number below 65536 is recorded as it is (R200). -/
theorem toNat_errInfo_latch (s : State) (f : Fault) {n : Nat} (h : n < 65536) : (s.latch f n).errInfo.toNat = n :=
  (BitVec.toNat_ofNat ..).trans (Nat.mod_eq_of_lt h)

/-- The fault an instruction latches in a step is reported with its cause: the last word is the one fetched, which is
the encoding of the instruction. -/
theorem faultReport_of_faults {i : Instr} {s t : State} (hdecode : decodeWord s.fetchWord = .ok i)
    (h : Faults i s.advance t) : FaultReport t := by
  obtain ⟨f, info, hf, hcause, rfl⟩ := h
  have hlast (n : Nat) : (s.advance.latch f n).lastWord = s.fetchWord := by simp
  have hword : (s.advance.latch f (encode i).toNat).errInfo = s.fetchWord :=
    (errInfo_latch_toNat ..).trans (encodedBy_of_decodeWord hdecode).1
  cases f with
  | unsupportedOpcode =>
    obtain ⟨nnn, rfl⟩ := raisable_unsupportedOpcode hf
    subst hcause
    exact ⟨hword.trans (hlast _).symm, nnn, (hlast _).symm ▸ hdecode⟩
  | dataAddressOutOfRange =>
    subst hcause
    refine ⟨toNat_errInfo_latch _ _ ?_, i, (hlast _).symm ▸ hdecode, hf⟩
    have := s.I.isLt
    exact Nat.max_lt.2 ⟨this, by decide⟩
  | stackOverflow =>
    obtain ⟨nnn, rfl⟩ := raisable_stackOverflow hf
    obtain ⟨rfl, hsp⟩ := hcause
    exact ⟨hword.trans (hlast _).symm, Fin.ext hsp, nnn, (hlast _).symm ▸ hdecode⟩
  | stackUnderflow =>
    obtain rfl := raisable_stackUnderflow hf
    obtain ⟨rfl, hsp⟩ := hcause
    exact ⟨hword.trans (hlast _).symm, Fin.ext hsp, (hlast _).symm ▸ hdecode⟩
  | keyIndexOutOfRange =>
    obtain ⟨x, hi, rfl, hx⟩ := hcause
    refine ⟨x, ?_, hx, toNat_errInfo_latch _ _ (by omega)⟩
    rw [hlast, hdecode]
    exact hi.imp (congrArg _) (congrArg _)
  | unknownOpcode | programTooLarge | fetchOutOfRange => exact hcause.elim

/-- No instruction raises `ProgramTooLarge` (R193). -/
theorem not_raisable_programTooLarge (i : Instr) : ¬ raisable i .programTooLarge := by
  cases i <;> simp [raisable]

/-- Settles O47: a step that latches a fault reports it, a step that completes has none to report. -/
theorem everyStepKeepsTheFaultReport : Obligations.EveryStepKeepsTheFaultReport := by
  intro s t hreport h
  obtain ⟨-, rfl⟩ | ⟨-, hpc, rfl⟩ | ⟨-, -, ⟨e, hdecode⟩, rfl⟩ | ⟨herr, -, i, hdecode, hexec⟩ := step_cases h
  · exact ⟨hreport, fun _ => rfl⟩
  · exact ⟨⟨errInfo_latch_toNat .., hpc⟩, nofun⟩
  · have hlast (n : Nat) : (s.advance.latch .unknownOpcode n).lastWord = s.fetchWord := by simp
    refine ⟨⟨(errInfo_latch_toNat ..).trans (hlast _).symm, ?_⟩, nofun⟩
    rw [hlast, hdecode, decodeWord_error hdecode]
  · obtain hdone | hfault := exec_ends hexec
    · have hnone : t.err = none := hdone.err.trans herr
      refine ⟨?_, fun htoo => by cases hnone.symm.trans htoo⟩
      unfold FaultReport
      rw [hnone]
      trivial
    · refine ⟨faultReport_of_faults hdecode hfault, fun htoo => ?_⟩
      obtain ⟨f, info, hf, -, rfl⟩ := hfault
      exact absurd (Option.some.inj htoo ▸ hf) (not_raisable_programTooLarge i)

/-! ### Leaving the halted condition (R203) -/

/-- Settles O48: a step of a halted core changes nothing, and of the host's operations only `reset()` clears the
latch. -/
theorem onlyResetClearsTheErrorLatch : Obligations.OnlyResetClearsTheErrorLatch := by
  intro o s t herr h
  cases o with
  | step =>
    cases (step_halted herr).symm.trans h
    exact iff_of_false herr nofun
  | reset => cases h; exact iff_of_true rfl rfl
  | loadProgram bytes =>
    cases h
    refine iff_of_false ?_ nofun
    unfold hostLoadProgram
    split
    · exact herr
    · exact nofun
  | loadFonts | keyDown | keyUp | tickTimers => cases h; exact iff_of_false herr nofun

/-! ### The redraw flag (R29, R93) -/

/-- Settles O46: the step clears `redraw`, only `DXYN` and `00E0` can write it, and `DXYN` leaves it clear when it
faults. -/
theorem redrawSaysADrawCompleted : Obligations.RedrawSaysADrawCompleted := by
  intro s t herr hpc h
  obtain ⟨hhalted, -⟩ | ⟨-, hbeyond, -⟩ | ⟨-, -, ⟨e, hdecode⟩, rfl⟩ | ⟨-, -, i, hdecode, hexec⟩ := step_cases h
  · exact absurd herr hhalted
  · omega
  · simp [hdecode]
  · by_cases hpart : .redraw ∈ writableParts i
    · cases i with
      | cls =>
        cases hexec
        simp [hdecode]
      | drw x y n =>
        obtain ⟨-, -, rfl⟩ | ⟨-, rfl⟩ := exec_drw_cases hexec
        · simp [hdecode]
        · have hnone : (drawRows x y n.toNat (s.advance.setV vf 0#8)).err = none := by
            rw [(drawRows_frame x y n.toNat _).rest]
            exact herr
          simp [hdecode, hnone]
      | _ => simp [writableParts] at hpart
    · have hcleared : t.redraw = false := (exec_frame hexec).redraw hpart
      have hnot : i ≠ .cls ∧ ∀ x y n, i ≠ .drw x y n :=
        ⟨fun hi => hpart (by simp [hi, writableParts]), fun x y n hi => hpart (by simp [hi, writableParts])⟩
      simp [hdecode, hcleared, hnot]

end Sys2Proof.Machine
end

