-- ==== Sys2Proof/Proofs/Steps.lean ====
section
/-! Whole steps (`40_step_cycle.md`): the faults of the step itself, the halted core, and the instructions whose effect
the spec states over one or two steps. -/

namespace Sys2Proof.Machine

/-! ### Steps that run no instruction (R95, R96, R194) -/

/-- Settles O6: the step advances and then latches the word, and both keep their frame. -/
theorem stepOnAnUnknownWordStopsTheCore : Obligations.StepOnAnUnknownWordStopsTheCore := by
  intro s op e herr hpc hop hdecode
  obtain rfl : s.fetchWord = op := State.fetchWord_eq_of_toNat hop
  have hframe : KeepsOutside [.pc, .redraw, .error] s (s.advance.latch .unknownOpcode s.fetchWord.toNat) :=
    (s.advance_frame.mono (by simp)).trans ((State.latch_frame ..).mono (by simp))
  exact ⟨_, step_unknown herr hpc hdecode, rfl, errInfo_latch_toNat .., rfl, rfl, hframe.onlyChanges⟩

/-- Settles O7: the step enters the fault before it advances. -/
theorem stepBeyondMemoryStopsTheCore : Obligations.StepBeyondMemoryStopsTheCore :=
  fun s herr hpc => ⟨_, step_beyond herr hpc, s.latch_entersFault _ _⟩

/-- Settles O8: the first branch of the step. -/
theorem stepOfAHaltedCoreChangesNothing : Obligations.StepOfAHaltedCoreChangesNothing := fun _ => step_halted

/-! ### Instructions that come back to themselves (R122, R164) -/

theorem State.setRedraw_frame (s : State) (d : Bool) : KeepsOutside [.redraw] s (s.setRedraw d) := {}

/-- Jumping back to where the step began leaves only the cleared `redraw`. -/
theorem State.advance_jump_pc (s : State) : s.advance.jump s.pc = s.setRedraw false := rfl

theorem State.advance_rewind (s : State) : s.advance.rewind = s.setRedraw false := by
  have hpc : s.pc + 2#16 - 2#16 = s.pc := BitVec.add_sub_cancel ..
  show s.advance.jump (s.pc + 2#16 - 2#16) = _
  rw [hpc, State.advance_jump_pc]

/-- The word of a core halted normally is the jump to its own address (R230). -/
theorem State.HaltedNormally.decode {s : State} (h : s.HaltedNormally) :
    ∃ nnn, decodeWord s.fetchWord = .ok (.jp nnn) ∧ wordOfImm nnn = s.pc := by
  obtain ⟨-, hrange, hself⟩ := h
  have hlow : (BitVec.ofNat 12 s.pc.toNat).toNat = s.pc.toNat :=
    (BitVec.toNat_ofNat ..).trans (Nat.mod_eq_of_lt (by omega))
  refine ⟨BitVec.ofNat 12 s.pc.toNat, ?_, BitVec.eq_of_toNat_eq ((toNat_wordOfImm _).trans hlow)⟩
  have hword : s.fetchWord = encode (.jp (BitVec.ofNat 12 s.pc.toNat)) := by
    apply BitVec.eq_of_toNat_eq
    show _ = (packNNN 1#4 _).toNat
    rw [hself, toNat_packNNN, hlow]
    rfl
  rw [hword]
  exact decodeWord_encode rfl

/-- Settles O11: the step is the jump to its own address. -/
theorem aSelfJumpReproducesTheState : Obligations.ASelfJumpReproducesTheState := by
  intro s hhalted
  obtain ⟨nnn, hdecode, htarget⟩ := hhalted.decode
  have hstep : step s = .next (s.setRedraw false) := by
    rw [step_running hhalted.running hhalted.inRange hdecode, exec_jp, htarget, State.advance_jump_pc]
  exact ⟨_, hstep, rfl, (s.setRedraw_frame false).onlyChanges, ⟨hhalted.running, hhalted.inRange, hhalted.selfJump⟩⟩

/-- Settles O12: the scan finds no key, so the instruction takes back the advance. -/
theorem aKeyWaitWithNoKeyDownChangesOnlyRedraw : Obligations.AKeyWaitWithNoKeyDownChangesOnlyRedraw := by
  intro s x herr hpc hdecode hup
  have hscan : s.advance.scanKeys = none := State.scanKeys_eq_none.2 hup
  rw [step_running herr hpc hdecode, exec_ldVxK_none hscan, State.advance_rewind]
  rfl

/-! ### A call and its return (R120, R123) -/

/-- The state after the step of a call below the depth of the stack. -/
theorem step_call {s : State} {nnn : Imm12} (herr : s.err = none) (hpc : s.pc.toNat ≤ 0x0FFE)
    (hsp : s.sp.val < 12) (hdecode : decodeWord s.fetchWord = .ok (.call nnn)) :
    step s = .next { s.advance with stack := s.stack.set s.sp.val (s.pc + 2#16) hsp,
                                    sp := ⟨s.sp.val + 1, Nat.succ_lt_succ hsp⟩, pc := wordOfImm nnn } :=
  (step_running herr hpc hdecode).trans (exec_call_pushes (s := s.advance) hsp)

/-- Settles O10: the return pops the slot the call has just pushed. -/
theorem aCallThenAReturnResumesAfterTheCall : Obligations.ACallThenAReturnResumesAfterTheCall := by
  intro s nnn herr hpc hnnn hsp hcall hret
  have hstep := step_call herr hpc hsp hcall
  generalize ht : ({ s.advance with stack := _, sp := _, pc := _ } : State) = t at hstep
  have hslot (j : Fin 12) : t.slot j = if j.val = s.sp.val then s.pc + 2#16 else s.slot j := by
    rw [← ht]
    exact State.slot_pushed s.advance ..
  have htpc : t.pc = wordOfImm nnn := by rw [← ht]
  have htsp : t.sp.val = (⟨s.sp.val, hsp⟩ : Fin 12).val + 1 := by rw [← ht]
  have hdecode : decodeWord t.fetchWord = .ok .ret := by
    have hword : t.fetchWord = 0x00EE#16 := by rw [← hret, ← ht]; rfl
    rw [hword]
    rfl
  have hterr : t.err = none := by rw [← ht]; exact herr
  have hback : step t = _ := (step_running hterr (by rw [htpc, toNat_wordOfImm]; exact hnnn) hdecode).trans
    (exec_ret_pops (s := t.advance) htsp)
  refine ⟨t, _, hstep, by rw [htpc, toNat_wordOfImm], htsp, hback, ?_, rfl, fun k hk => ?_, ?_⟩
  · exact (hslot ⟨s.sp.val, hsp⟩).trans (if_pos rfl)
  · exact (hslot k).trans (if_neg (by omega))
  · subst ht
    exact KeepsOutside.onlyChanges {}

end Sys2Proof.Machine
end

