-- ==== Sys2Proof/Proofs/FlagsAndResults.lean ====
section
/-! Results and flags (`41_arithmetic_logic.md`): a register write and a flag with its result as the statements' frames,
the byte operations by their values, and the instructions made of them. -/

namespace Sys2Proof.Machine

/-! ### Logic (R101 to R103) -/

theorem State.setV_writesRegister (s : State) (x : RegIdx) (b : Byte) : WritesRegister x b [] s (s.setV x b) :=
  ⟨s.setV_getV_same x b, fun _ hr => (s.setV_getV ..).trans (if_neg hr), (s.setV_frame x b).onlyChanges⟩

/-- Settles O14: the three instructions are plain register writes. -/
theorem logicWritesOnlyItsResult : Obligations.LogicWritesOnlyItsResult := fun x y s =>
  ⟨⟨_, exec_orReg x y s, s.setV_writesRegister x _⟩, ⟨_, exec_andReg x y s, s.setV_writesRegister x _⟩,
    ⟨_, exec_xorReg x y s, s.setV_writesRegister x _⟩⟩

/-! ### A flag and a result (R104 to R108, R111) -/

/-- With the flag in `VF`, a register reads as the spec's sequential reading says (R111, decision D1). -/
theorem State.setV_vf_getV (s : State) (flag : Byte) (r : RegIdx) : (s.setV vf flag).getV r = afterFlag s flag r :=
  s.setV_getV vf r flag

theorem flagThenResult_writes {x : RegIdx} {flag b : Byte} {result : State → Byte} {s : State}
    (h : result (s.setV vf flag) = b) : WritesFlagAndResult x flag b s (flagThenResult x flag result s) where
  result := by rw [flagThenResult_getV, if_pos rfl, h]
  flag hx := by rw [flagThenResult_getV, if_neg (Ne.symm hx), if_pos rfl]
  others r hx hvf := by rw [flagThenResult_getV, if_neg hx, if_neg hvf]
  frame := (flagThenResult_keepsOutside ..).onlyChanges

theorem flagOf_decide (p : Prop) [Decidable p] : flagOf (decide p) = if p then 1 else 0 := by
  by_cases hp : p <;> simp [flagOf, hp]

theorem byte_add (a b : Byte) : a + b = BitVec.ofNat 8 ((a.toNat + b.toNat) % 256) := by
  apply BitVec.eq_of_toNat_eq
  simp

theorem byte_sub (a b : Byte) : a - b = BitVec.ofNat 8 ((a.toNat + 256 - b.toNat) % 256) := by
  bv_omega

theorem byte_shiftRight (a : Byte) : a >>> 1 = BitVec.ofNat 8 (a.toNat / 2) := by
  bv_omega

theorem byte_shiftLeft (a : Byte) : a <<< 1 = BitVec.ofNat 8 (a.toNat * 2 % 256) := by
  bv_omega

/-- Bit 0 is the parity (R106). -/
theorem lowBitFlag_eq (a : Byte) : lowBitFlag a = BitVec.ofNat 8 (a.toNat % 2) := by
  revert a
  decide

/-- Bit 7 is set from 128 on (R108). -/
theorem highBitFlag_eq (a : Byte) : highBitFlag a = BitVec.ofNat 8 (a.toNat / 128) := by
  revert a
  decide

/-- Settles O15: the carry, then the sum of the operands as they read with the carry in `VF`. -/
theorem addRegistersGivesSumAndCarry : Obligations.AddRegistersGivesSumAndCarry := by
  intro x y s
  have hflag : carryFlag (s.getV x) (s.getV y) = if (s.getV x).toNat + (s.getV y).toNat > 255 then 1 else 0 :=
    flagOf_decide _
  refine ⟨_, hflag ▸ exec_addReg x y s, flagThenResult_writes ?_⟩
  rw [State.setV_vf_getV, State.setV_vf_getV, byte_add]

/-- Settles O16: the comparison, then the difference of the operands as they read with the flag in `VF`. -/
theorem subtractGivesDifferenceAndGreater : Obligations.SubtractGivesDifferenceAndGreater := by
  intro x y s
  have hflag : greaterFlag (s.getV x) (s.getV y) = if (s.getV x).toNat > (s.getV y).toNat then 1 else 0 :=
    flagOf_decide _
  refine ⟨_, hflag ▸ exec_subReg x y s, flagThenResult_writes ?_⟩
  rw [State.setV_vf_getV, State.setV_vf_getV, byte_sub]

/-- Settles O17: as O16, with the operands exchanged. -/
theorem reverseSubtractGivesDifferenceAndGreater : Obligations.ReverseSubtractGivesDifferenceAndGreater := by
  intro x y s
  have hflag : greaterFlag (s.getV y) (s.getV x) = if (s.getV y).toNat > (s.getV x).toNat then 1 else 0 :=
    flagOf_decide _
  refine ⟨_, hflag ▸ exec_subnReg x y s, flagThenResult_writes ?_⟩
  rw [State.setV_vf_getV, State.setV_vf_getV, byte_sub]

/-- Settles O18: with `x = 15` the operand is the flag, 0 or 1, and half of it is 0. -/
theorem shiftRightGivesHalfAndLowBit : Obligations.ShiftRightGivesHalfAndLowBit := by
  intro x y s
  have hwrites : WritesFlagAndResult x (BitVec.ofNat 8 ((s.getV x).toNat % 2)) _ s _ :=
    flagThenResult_writes (result := fun t => t.getV x >>> 1) (by rw [State.setV_vf_getV, byte_shiftRight])
  refine ⟨_, lowBitFlag_eq (s.getV x) ▸ exec_shr x y s, hwrites, ?_⟩
  rintro rfl
  refine hwrites.result.trans ?_
  rw [afterFlag, if_pos rfl]
  bv_omega

/-- Settles O19: bit 7, then twice the operand as it reads with the flag in `VF`. -/
theorem shiftLeftGivesDoubleAndHighBit : Obligations.ShiftLeftGivesDoubleAndHighBit := by
  intro x y s
  refine ⟨_, highBitFlag_eq (s.getV x) ▸ exec_shl x y s, flagThenResult_writes ?_⟩
  rw [State.setV_vf_getV, byte_shiftLeft]

/-! ### The free draw (R109) -/

/-- Settles O20: the mask has no bit in common with its complement, whatever the draw is. -/
theorem randomWritesTheMaskedDraw : Obligations.RandomWritesTheMaskedDraw := by
  intro x nn s
  have hmasked : (Config.randomByte s.draws &&& nn) &&& ~~~nn = 0 := by
    rw [BitVec.and_assoc, BitVec.and_not_self]
    exact BitVec.and_zero
  refine ⟨_, exec_rnd x nn s, ⟨State.setV_getV_same .., fun r hr => ?_, ?_⟩, ?_, rfl⟩
  · exact (State.setV_getV ..).trans (if_neg hr)
  · exact KeepsOutside.onlyChanges {}
  · rw [State.setV_getV_same, hmasked]

/-! ### The values of a flag (R21) -/

/-- The flag of an instruction with another destination is one of the two flag values. -/
theorem flagThenResult_vf_cases {x : RegIdx} (hx : x ≠ vf) (c : Bool) (result : State → Byte) (s : State) :
    (flagThenResult x (flagOf c) result s).getV vf = 0 ∨ (flagThenResult x (flagOf c) result s).getV vf = 1 := by
  rw [(flagThenResult_writes rfl).flag hx]
  exact flagOf_cases c

end Sys2Proof.Machine
end

