-- ==== Sys2Proof/Proofs/CallsAndKeys.lean ====
section
/-! Calls, returns, machine calls and unreduced sums (`42_control_flow.md`), and the key tests
(`44_graphics_input.md`), each in all its outcomes. -/

namespace Sys2Proof.Machine

/-! ### The stack (R120, R123) -/

/-- Settles O21: a pop of the last valid slot, or the entry of the fault. -/
theorem returnPopsTheStack : Obligations.ReturnPopsTheStack := fun _ =>
  ⟨fun _ hsp => ⟨_, exec_ret_pops hsp, rfl, rfl, fun _ => rfl, KeepsOutside.onlyChanges {}⟩,
    fun hsp => ⟨_, exec_ret_empty hsp, State.latch_entersFault ..⟩⟩

/-- Settles O24: a push at `sp`, which reaches no other slot, or the entry of the fault. -/
theorem callPushesThePcAndJumps : Obligations.CallPushesThePcAndJumps := by
  intro nnn s
  refine ⟨fun k hk => ?_, fun hfull => ⟨_, exec_call_full hfull, s.latch_entersFault _ _⟩⟩
  have hsp : s.sp.val < 12 := by omega
  refine ⟨_, exec_call_pushes hsp, toNat_wordOfImm nnn, ?_, congrArg (· + 1) hk, fun j hj => ?_,
    KeepsOutside.onlyChanges {}⟩
  · exact (s.slot_pushed ..).trans (if_pos hk.symm)
  · have hne : j.val ≠ s.sp.val := fun h => hj (Fin.ext (h.trans hk))
    exact (s.slot_pushed ..).trans (if_neg hne)

/-- Settles O22: the word of `0NNN` is `nnn`. -/
theorem machineCallRaisesUnsupportedOpcode : Obligations.MachineCallRaisesUnsupportedOpcode := by
  intro nnn s
  have hword : (encode (.sys nnn)).toNat = nnn.toNat := (toNat_packNNN 0#4 nnn).trans (Nat.zero_add _)
  exact ⟨_, exec_sys nnn s, hword ▸ s.latch_entersFault _ _⟩

/-! ### Unreduced sums (R128, R146) -/

/-- Settles O27: `BNNN` cannot wrap, `FX1E` wraps at 65536. -/
theorem sixteenBitSumsAreNotReducedToTwelveBits : Obligations.SixteenBitSumsAreNotReducedToTwelveBits := by
  constructor
  · intro nnn s
    exact ⟨_, exec_jpV0 nnn s, toNat_wordOfImm_add_wordOfByte nnn _, (s.jump_frame _).onlyChanges⟩
  · intro x s
    refine ⟨_, exec_addI x s, ?_, (s.setI_frame _).onlyChanges⟩
    rw [State.setI_I, BitVec.toNat_add, toNat_wordOfByte]

/-! ### Key tests (R162, R163, R198) -/

/-- Settles O39: both tests are conditional skips, on the key and on its negation. -/
theorem keyTestsSkipOnTheKeyState : Obligations.KeyTestsSkipOnTheKeyState := by
  intro x k s hkey
  refine ⟨⟨_, exec_skp_key hkey, ?_, (s.skipIf_frame _).onlyChanges⟩,
    ⟨_, exec_sknp_key hkey, ?_, (s.skipIf_frame _).onlyChanges⟩⟩
  · cases s.keyIsDown k <;> rfl
  · cases s.keyIsDown k <;> rfl

/-- Settles O40: `V[x]` names no key, so both tests enter the fault. -/
theorem aKeyTestBeyondTheKeypadFaults : Obligations.AKeyTestBeyondTheKeypadFaults := fun _ s hx =>
  ⟨⟨_, exec_skp_faults hx, s.latch_entersFault _ _⟩, ⟨_, exec_sknp_faults hx, s.latch_entersFault _ _⟩⟩

end Sys2Proof.Machine
end

