-- ==== Sys2Proof/Proofs/DataRange.lean ====
section
/-! Instructions over the bytes from `I` (`20_memory.md` R52, `43_memory_register_transfer.md` R148 to R150): what the
stores leave in memory, what a fetch then sees, and the fault beyond memory. -/

namespace Sys2Proof.Machine

/-! ### Stores (R148, R149) -/

theorem toNat_byte_ofNat {n : Nat} (h : n < 256) : (BitVec.ofNat 8 n).toNat = n :=
  (BitVec.toNat_ofNat ..).trans (Nat.mod_eq_of_lt h)

/-- Settles O31: the digits are a run of three bytes, each below 256. -/
theorem decimalStoreWritesThreeDigits : Obligations.DecimalStoreWritesThreeDigits := by
  intro x s hmem hfits
  have hbyte := (s.getV x).isLt
  have hdigit (k : Nat) (hk : k < 3) :
      (s.writeBytes (dataAddr s 0) (bcdDigits (s.getV x))).readByte (dataAddr s k) = (bcdDigits (s.getV x))[k] :=
    State.readByte_writeBytes_at (bcdDigits (s.getV x)) k hk hmem (show s.I.toNat + 0 + 3 ≤ 4096 by omega)
  refine ⟨_, exec_ldB_fits hfits, ?_, ?_, ?_, fun a ha => ?_, (s.writeBytes_frame _ _).onlyChanges⟩
  · rw [hdigit 0 (by decide)]
    exact toNat_byte_ofNat (by omega)
  · rw [hdigit 1 (by decide)]
    exact toNat_byte_ofNat (by omega)
  · rw [hdigit 2 (by decide)]
    exact toNat_byte_ofNat (by omega)
  · refine s.readByte_writeBytes_other _ (ha.imp_right fun h => ?_)
    have h : s.I.toNat + 2 < a := h
    show s.I.toNat + 0 + 3 ≤ a
    omega

/-- The registers a store writes, as the run of bytes it is. -/
theorem length_storedRegs (x : RegIdx) (s : State) : ((regsUpTo x).map s.getV).length = x.val + 1 := by
  rw [List.length_map, length_regsUpTo]

/-- After `FX55` each register up to `Vx` is read back at its place in the range. -/
theorem readByte_storedRegs {s : State} {x k : RegIdx} (hmem : s.mem.wf = true) (hfits : s.I.toNat + x.val ≤ 0xFFF)
    (hk : k ≤ x) :
    (s.writeBytes (dataAddr s 0) ((regsUpTo x).map s.getV)).readByte (dataAddr s k.val) = s.getV k := by
  have hlen := length_storedRegs x s
  have hlt : k.val < ((regsUpTo x).map s.getV).length := hlen ▸ Nat.lt_succ_of_le hk
  have hread := State.readByte_writeBytes_at (a := dataAddr s 0) ((regsUpTo x).map s.getV) k.val hlt hmem
    (by rw [hlen]; show s.I.toNat + 0 + (x.val + 1) ≤ 4096; omega)
  refine hread.trans ?_
  rw [List.getElem_map, getElem_regsUpTo]

/-- Settles O32: the registers are a run of `x + 1` bytes, read back inside it and not met outside. -/
theorem registerStoreWritesTheRange : Obligations.RegisterStoreWritesTheRange := by
  intro x s hmem hfits
  refine ⟨_, exec_storeRegs_fits hfits, fun k hk => readByte_storedRegs hmem hfits hk, fun a ha => ?_,
    (s.writeBytes_frame _ _).onlyChanges⟩
  refine s.readByte_writeBytes_other _ (ha.imp_right fun h => ?_)
  rw [length_storedRegs]
  exact h

/-- Settles O9: a fetch reads two neighbouring bytes of the range, the lower one first. -/
theorem aFetchSeesTheBytesJustStored : Obligations.AFetchSeesTheBytesJustStored := by
  intro s x j k hmem hfits hk hjk
  have hj : j ≤ x := Fin.le_def.2 (by have := Fin.le_def.1 hk; omega)
  have haddr : (BitVec.ofNat 16 (dataAddr s j.val)).toNat = dataAddr s j.val := by
    refine (BitVec.toNat_ofNat ..).trans (Nat.mod_eq_of_lt ?_)
    have := Fin.le_def.1 hj
    show s.I.toNat + j.val < 65536
    omega
  have hnext : dataAddr s j.val + 1 = dataAddr s k.val := by rw [hjk]; rfl
  refine ⟨_, exec_storeRegs_fits hfits, ?_⟩
  rw [State.toNat_fetchWord, State.jump_pc, haddr, hnext, State.jump_readByte, State.jump_readByte,
    readByte_storedRegs hmem hfits hj, readByte_storedRegs hmem hfits hk]

/-! ### Loads (R150) -/

/-- Settles O33: the load reaches the registers up to `Vx` and no others. -/
theorem registerLoadReadsTheRange : Obligations.RegisterLoadReadsTheRange := by
  intro x s hfits
  refine ⟨_, exec_loadRegs_fits hfits, fun k hk => ?_, fun k hk => ?_, (loadRegList_keepsOutside ..).onlyChanges⟩
  · rw [loadRegList_getV, if_pos ((mem_regsUpTo x k).2 hk)]
  · rw [loadRegList_getV, if_neg (mt (mem_regsUpTo x k).1 (not_le.2 hk))]

/-! ### Beyond memory (R195) -/

/-- Settles O34: each of the four checks its whole range first. -/
theorem anAddressBeyondMemoryFaultsBeforeAnyWrite : Obligations.AnAddressBeyondMemoryFaultsBeforeAnyWrite := fun s =>
  ⟨fun _ _ _ hn hfar => ⟨_, exec_drw_faults hn hfar, s.latch_entersFault _ _⟩,
    fun _ hfar => ⟨_, exec_ldB_faults hfar, s.latch_entersFault _ _⟩,
    fun _ hfar => ⟨_, exec_storeRegs_faults hfar, s.latch_entersFault _ _⟩,
    fun _ hfar => ⟨_, exec_loadRegs_faults hfar, s.latch_entersFault _ _⟩⟩

end Sys2Proof.Machine
end

