-- ==== Sys2Proof/Proofs/HostState.lean ====
section
/-! The host's operations on the state (`45_host_operations.md`, `70_reset_and_hazards.md`): reset, the loads and the
key events with their frames, the boot sequence they make, and the outputs. -/

namespace Sys2Proof.Machine

/-! ### Reset (R221, R222) -/

theorem hostReset_frame (s : State) : KeepsOutside [.pc, .stack, .index, .screen, .error] s (hostReset s) := by
  unfold hostReset
  exact {}

theorem hostReset_cell (s : State) (c : Nat) : (hostReset s).cell c = false := s.clearCells_cell c

/-- Settles O52: the screen after reset is a cleared one, the other values stand in the definition. -/
theorem resetStateHasTheSpecsValues : Obligations.ResetStateHasTheSpecsValues :=
  ⟨rfl, rfl, rfl, rfl, fun c _ => State.reset.clearCells_cell c⟩

/-- Settles O53: the five writes by their values, and the frame of `reset()`. -/
theorem hostResetWritesFiveThings : Obligations.HostResetWritesFiveThings := fun s =>
  ⟨_, rfl, rfl, rfl, rfl, rfl, fun c _ => hostReset_cell s c, rfl, fun _ => rfl, (hostReset_frame s).onlyChanges⟩

/-! ### Loads and key events (R180 to R183) -/

theorem hostLoadProgram_fits {bytes : List Byte} (s : State) (h : bytes.length ≤ 3584) :
    hostLoadProgram bytes s = s.writeBytes 0x200 bytes := if_pos h

theorem hostLoadProgram_rejects {bytes : List Byte} (s : State) (h : 3584 < bytes.length) :
    hostLoadProgram bytes s = s.latch .programTooLarge bytes.length := if_neg (Nat.not_le.2 h)

theorem perform_loadProgram (bytes : List Byte) (s : State) :
    perform (.loadProgram bytes) s = .next (hostLoadProgram bytes s) := rfl

/-- Settles O54: the program is a run of bytes from 0x200, or the entry of the fault. -/
theorem loadProgramCopiesOrRejects : Obligations.LoadProgramCopiesOrRejects := by
  intro bytes s hmem
  refine ⟨fun hlen => ?_, fun hlen => ?_⟩
  · refine ⟨_, hostLoadProgram_fits s hlen ▸ perform_loadProgram bytes s, fun k hk => ?_, fun a ha => ?_,
      (s.writeBytes_frame _ _).onlyChanges⟩
    · exact State.readByte_writeBytes_at bytes k hk hmem (by omega)
    · exact s.readByte_writeBytes_other bytes ha
  · exact ⟨_, hostLoadProgram_rejects s hlen ▸ perform_loadProgram bytes s, s.latch_entersFault _ _⟩

/-- A key event in the shape both events are stated in: one latch written, nothing else. -/
theorem State.setKey_writesOneLatch (s : State) (k : KeyIdx) (d : Bool) :
    (s.setKey k d).keyIsDown k = d ∧ (∀ j, j ≠ k → (s.setKey k d).keyIsDown j = s.keyIsDown j) ∧
      OnlyChanges [.keypad] s (s.setKey k d) :=
  ⟨(s.setKey_keyIsDown ..).trans (if_pos rfl), fun _ hj => (s.setKey_keyIsDown ..).trans (if_neg hj),
    (s.setKey_frame k d).onlyChanges⟩

/-- Settles O56: both events write one latch. -/
theorem keyEventsWriteOneLatch : Obligations.KeyEventsWriteOneLatch := fun k s =>
  ⟨⟨_, rfl, s.setKey_writesOneLatch k true⟩, ⟨_, rfl, s.setKey_writesOneLatch k false⟩⟩

/-! ### Every operation keeps its frame -/

theorem hostTickTimers_frame (s : State) : KeepsOutside [.delayTimer, .soundTimer] s (hostTickTimers s) := by
  unfold hostTickTimers
  exact {}

/-- No instruction writes the keypad (R27). -/
theorem writableParts_subset_step (i : Instr) : writableParts i ⊆ operationParts .step := by
  cases i <;> simp [writableParts, operationParts]

theorem step_frame {s t : State} (h : step s = .next t) : KeepsOutside (operationParts .step) s t := by
  have hadvance : KeepsOutside (operationParts .step) s s.advance := s.advance_frame.mono (by decide)
  have hlatch (u : State) (f : Fault) (n : Nat) : KeepsOutside (operationParts .step) u (u.latch f n) :=
    (u.latch_frame f n).mono (by decide)
  obtain ⟨-, rfl⟩ | ⟨-, -, rfl⟩ | ⟨-, -, -, rfl⟩ | ⟨-, -, i, -, hexec⟩ := step_cases h
  · exact .refl _ _
  · exact hlatch ..
  · exact hadvance.trans (hlatch ..)
  · exact hadvance.trans ((exec_frame hexec).mono (writableParts_subset_step i))

/-- Settles O58: the frame of each operation, `step` by its four cases. -/
theorem everyHostOperationKeepsItsFrame : Obligations.EveryHostOperationKeepsItsFrame := by
  intro o s t h
  refine KeepsOutside.onlyChanges ?_
  cases o with
  | step => exact step_frame h
  | reset => cases h; exact hostReset_frame s
  | loadFonts => cases h; exact s.writeBytes_frame _ _
  | loadProgram bytes =>
    cases h
    unfold hostLoadProgram
    split
    · exact (s.writeBytes_frame _ _).mono (by simp [operationParts])
    · exact (s.latch_frame _ _).mono (by simp [operationParts])
  | keyDown k => cases h; exact s.setKey_frame k true
  | keyUp k => cases h; exact s.setKey_frame k false
  | tickTimers => cases h; exact hostTickTimers_frame s

/-! ### The boot sequence (R223, R224) -/

/-- The state the boot sequence ends in. -/
def booted (bytes : List Byte) (s : State) : State :=
  ((hostReset s).writeBytes 0 Config.font.toList).writeBytes 0x200 bytes

theorem performAll_bootSequence {bytes : List Byte} (s : State) (h : bytes.length ≤ 3584) :
    performAll (bootSequence bytes) s = .next (booted bytes s) := by
  unfold bootSequence
  rw [performAll_cons rfl, performAll_cons (perform_loadFonts _), performAll_cons (perform_loadProgram _ _),
    hostLoadProgram_fits _ h]
  rfl

theorem booted_frame (bytes : List Byte) (s : State) :
    KeepsOutside [.pc, .stack, .index, .screen, .error, .memory] s (booted bytes s) :=
  ((hostReset_frame s).mono (by simp)).trans
    (((State.writeBytes_frame ..).mono (by simp)).trans ((State.writeBytes_frame ..).mono (by simp)))

/-- The font keeps memory's form, so the program is read back over it. -/
theorem readByte_booted_program {bytes : List Byte} {s : State} (hmem : s.mem.wf = true) (hlen : bytes.length ≤ 3584)
    (k : Nat) (hk : k < bytes.length) : (booted bytes s).readByte (0x200 + k) = bytes[k] := by
  have hfont : Config.font.toList.length = 80 := Vector.length_toList
  exact State.readByte_writeBytes_at (s := (hostReset s).writeBytes 0 Config.font.toList) bytes k hk
    (Memory.wf_writeBytes 0 _ (show (hostReset s).mem.wf = true from hmem) (by omega)) (by omega)

/-- The program lies above the font, which is read back through it. -/
theorem readByte_booted_font {bytes : List Byte} {s : State} (hmem : s.mem.wf = true) (k : Nat) (hk : k < 80) :
    (booted bytes s).readByte k = Config.font[k] := by
  obtain ⟨t, ht, hfont, -⟩ := loadFontsCopiesEightyBytes (hostReset s) hmem
  cases ht
  exact (State.readByte_writeBytes_other _ bytes (.inl (by omega))).trans (hfont k hk)

theorem readByte_booted_other {bytes : List Byte} (s : State) {a : Nat} (hfont : 80 ≤ a)
    (hprogram : a < 0x200 ∨ 0x200 + bytes.length ≤ a) : (booted bytes s).readByte a = s.readByte a := by
  have hlen : Config.font.toList.length = 80 := Vector.length_toList
  calc (booted bytes s).readByte a
      = ((hostReset s).writeBytes 0 Config.font.toList).readByte a := State.readByte_writeBytes_other _ bytes hprogram
    _ = (hostReset s).readByte a := State.readByte_writeBytes_other _ _ (.inr (by omega))
    _ = s.readByte a := rfl

theorem booted_isLaunch {bytes : List Byte} {s : State} (hmem : s.mem.wf = true) (hlen : bytes.length ≤ 3584) :
    (booted bytes s).IsLaunch bytes where
  pc := rfl
  sp := rfl
  I := rfl
  fb c _ := hostReset_cell s c
  err := rfl
  font := readByte_booted_font hmem
  program := readByte_booted_program hmem hlen

/-- Settles O59: the booted state is a launch state, and its first word is the first two bytes of the program. -/
theorem theBootSequenceReachesALaunchState : Obligations.TheBootSequenceReachesALaunchState := by
  intro bytes s hmem hlen
  have hlaunch := booted_isLaunch (s := s) hmem hlen
  refine ⟨_, performAll_bootSequence s hlen, hlaunch, ?_, (booted_frame bytes s).onlyChanges,
    fun a => readByte_booted_other s⟩
  rintro b0 b1 rest rfl
  have hfirst := hlaunch.program 0 (by simp)
  have hsecond := hlaunch.program 1 (by simp)
  rw [State.toNat_fetchWord, hlaunch.pc]
  exact congrArg₂ (fun hi lo : Byte => hi.toNat * 256 + lo.toNat) hfirst hsecond

/-! ### The outputs (R185, R199) -/

/-- The faults of R199, in the order of their codes. -/
def faultsByCode : List Fault :=
  [.unsupportedOpcode, .unknownOpcode, .programTooLarge, .fetchOutOfRange, .dataAddressOutOfRange, .stackOverflow,
    .stackUnderflow, .keyIndexOutOfRange]

theorem mem_faultsByCode (f : Fault) : f ∈ faultsByCode := by
  cases f <;> decide

theorem nodup_faultCodes : (faultsByCode.map faultCode).Nodup := by
  decide

theorem faultCode_injective (f g : Fault) (h : faultCode f = faultCode g) : f = g :=
  List.inj_on_of_nodup_map nodup_faultCodes (mem_faultsByCode f) (mem_faultsByCode g) h

theorem faultCode_range (f : Fault) : faultCode f ≠ 0 ∧ (faultCode f).toNat ≤ 8 := by
  cases f <;> decide

theorem errCode_range (s : State) : (s.errCode = 0 ↔ s.err = none) ∧ s.errCode.toNat ≤ 8 := by
  unfold State.errCode
  cases s.err with
  | none => simp
  | some f => exact ⟨iff_of_false (faultCode_range f).1 nofun, (faultCode_range f).2⟩

/-- Settles O60: the codes by the list of faults, the other outputs by definition. -/
theorem theOutputsShowTheState : Obligations.TheOutputsShowTheState :=
  ⟨fun s => ⟨(errCode_range s).1, (errCode_range s).2, rfl, rfl, rfl, decide_eq_true_iff⟩, faultCode_injective⟩

end Sys2Proof.Machine
end

