-- ==== Sys2Proof/Proofs/Sprites.lean ====
section
/-! The screen (`44_graphics_input.md` R160, R161, R165): `DXYN` is a fold over its set bits, the fold follows the scan
of the statements, and with fixed coordinates the scan flips each cell of the sprite once. -/

namespace Sys2Proof.Machine

/-- Settles O35: the screen is cleared, and `redraw` follows the parameter. -/
theorem clearScreenClearsEveryCell : Obligations.ClearScreenClearsEveryCell := by
  intro s
  refine ⟨_, exec_cls s, fun c _ => s.clearCells_cell c, fun hset => ?_, fun hunset => ?_, KeepsOutside.onlyChanges {}⟩
  · simp [hset]
  · simp [hunset]

/-! ### The set bits of a sprite (R161, R166) -/

/-- The set bits of one row, left to right. -/
def rowPixels (s : State) (row : Nat) : List (Nat × Nat) :=
  ((List.range 8).filter (fun col => spriteBit (s.readByte (dataAddr s row)) col)).map (fun col => (row, col))

theorem spritePixels_eq_flatMap (s : State) (n : Nat) :
    spritePixels s n = (List.range n).flatMap (rowPixels s) := rfl

/-- The set bits are those positions of the `n` by 8 grid whose bit is set. -/
theorem spritePixels_eq_filter (s : State) (n : Nat) : spritePixels s n =
    (List.range n ×ˢ List.range 8).filter (fun p => spriteBit (s.readByte (dataAddr s p.1)) p.2) := by
  show _ = List.filter _ (List.flatMap _ _)
  rw [List.filter_flatMap]
  simp only [List.filter_map]
  rfl

theorem nodup_spritePixels (s : State) (n : Nat) : (spritePixels s n).Nodup := by
  rw [spritePixels_eq_filter]
  exact (List.nodup_range.product List.nodup_range).filter _

theorem lt_of_mem_spritePixels {s : State} {n : Nat} {p : Nat × Nat} (h : p ∈ spritePixels s n) :
    p.1 < n ∧ p.2 < 8 := by
  rw [spritePixels_eq_filter, List.mem_filter] at h
  obtain ⟨hrow, hcol⟩ := List.pair_mem_product.1 h.1
  exact ⟨List.mem_range.1 hrow, List.mem_range.1 hcol⟩

/-! ### A draw is a fold over the set bits -/

/-- The set bits of a sprite drawn one after the other. -/
def drawPixels (x y : RegIdx) (pixels : List (Nat × Nat)) (s : State) : State :=
  pixels.foldl (fun t p => drawBit x y p.1 p.2 t) s

theorem drawRow_eq_drawPixels (x y : RegIdx) (row : Nat) (s t : State) :
    drawRow x y row (s.readByte (dataAddr s row)) t = drawPixels x y (rowPixels s row) t := by
  unfold drawRow drawPixels rowPixels
  rw [List.foldl_map, List.foldl_filter]

/-- No row of a draw changes the bytes the later rows are read from. -/
theorem foldl_drawRow_eq_drawPixels (x y : RegIdx) (rows : List Nat) {s t : State} (h : SameButVFAndCells s t) :
    rows.foldl (fun u row => drawRow x y row (u.readByte (dataAddr u row)) u) t =
      drawPixels x y (rows.flatMap (rowPixels s)) t := by
  induction rows generalizing t with
  | nil => rfl
  | cons row rows ih =>
    rw [List.foldl_cons, ih (h.trans (drawRow_frame ..)), h.dataAddr, h.readByte, drawRow_eq_drawPixels,
      List.flatMap_cons]
    exact List.foldl_append.symm

theorem drawRows_eq_drawPixels (x y : RegIdx) (n : Nat) {s t : State} (h : SameButVFAndCells s t) :
    drawRows x y n t = drawPixels x y (spritePixels s n) t := by
  rw [spritePixels_eq_flatMap]
  exact foldl_drawRow_eq_drawPixels x y (List.range n) h

/-! ### The fold follows the scan (R161, decision D22) -/

/-- A state in the course of a draw from `s`: its cells and `VF` are what the scan carries. -/
structure FollowsScan (s : State) (lit : Cells) (hit : Bool) (t : State) : Prop where
  cells : t.cell = lit
  flag : t.getV vf = flagOf hit
  frame : SameButVFAndCells s t

theorem FollowsScan.liveCoord {s t : State} {lit : Cells} {hit : Bool} (h : FollowsScan s lit hit t) (r : RegIdx) :
    (t.getV r).toNat = liveCoord s r hit := by
  unfold Machine.liveCoord
  split
  next hr =>
    rw [hr, h.flag]
    cases hit <;> rfl
  next hr => rw [h.frame.registers r hr]

theorem FollowsScan.targetCell {s t : State} {lit : Cells} {hit : Bool} (h : FollowsScan s lit hit t) (x y : RegIdx)
    (row col : Nat) : targetCell x y row col t =
      cellOf ((Machine.liveCoord s x hit + col) % 64) ((Machine.liveCoord s y hit + row) % 32) := by
  unfold Machine.targetCell
  rw [h.liveCoord, h.liveCoord]

/-- One set bit is one step of the scan. -/
theorem FollowsScan.drawBit {s t : State} {lit : Cells} {hit : Bool} (h : FollowsScan s lit hit t) (x y : RegIdx)
    (row col : Nat) : FollowsScan s
      (fun k => if k = Machine.targetCell x y row col t then !lit k else lit k)
      (hit || lit (Machine.targetCell x y row col t)) (drawBit x y row col t) where
  cells := by
    funext k
    rw [drawBit_cell, h.cells]
  flag := by
    rw [drawBit_vf, h.cells, h.flag]
    cases lit (Machine.targetCell x y row col t) <;> simp [flagOf]
  frame := h.frame.trans (drawBit_frame ..)

theorem FollowsScan.drawPixels {s t : State} {lit : Cells} {hit : Bool} (h : FollowsScan s lit hit t) (x y : RegIdx)
    (pixels : List (Nat × Nat)) : FollowsScan s (drawScan s x y pixels lit hit).1 (drawScan s x y pixels lit hit).2
      (drawPixels x y pixels t) := by
  induction pixels generalizing t lit hit with
  | nil => exact h
  | cons p rest ih =>
    have hbit := h.drawBit x y p.1 p.2
    rw [h.targetCell] at hbit
    exact ih hbit

/-- The state a draw within memory ends in. -/
def drawn (x y : RegIdx) (n : Nibble) (s : State) : State := (drawRows x y n.toNat (s.setV vf 0#8)).setRedraw true

theorem drawn_followsScan (x y : RegIdx) (n : Nibble) (s : State) :
    FollowsScan s (drawScan s x y (spritePixels s n.toNat) s.cell false).1
      (drawScan s x y (spritePixels s n.toNat) s.cell false).2 (drawRows x y n.toNat (s.setV vf 0#8)) := by
  have hstart : FollowsScan s s.cell false (s.setV vf 0#8) :=
    ⟨rfl, s.setV_getV_same vf 0#8, SameButVFAndCells.setVF s 0#8⟩
  rw [drawRows_eq_drawPixels x y n.toNat hstart.frame]
  exact hstart.drawPixels x y _

theorem drawn_frame (x y : RegIdx) (n : Nibble) (s : State) :
    KeepsOutside [.registers, .screen, .redraw] s (drawn x y n s) :=
  ((drawn_followsScan x y n s).frame.keepsOutside.mono (by simp)).trans ((State.setRedraw_frame ..).mono (by simp))

/-- Settles O36: the draw follows the scan from its first set bit to its last. -/
theorem drawFollowsTheScanOfItsSetBits : Obligations.DrawFollowsTheScanOfItsSetBits := by
  intro x y n s hfits
  have hscan := drawn_followsScan x y n s
  exact ⟨drawn x y n s, exec_drw_fits hfits, fun c _ => congrFun hscan.cells c, hscan.flag, rfl, hscan.frame.registers,
    (drawn_frame x y n s).onlyChanges⟩

/-! ### Fixed coordinates (R165) -/

/-- The cell a set bit addresses from the corner `(px, py)` (R161). -/
def pixelCell (px py : Nat) (p : Nat × Nat) : Nat := cellOf ((px + p.2) % 64) ((py + p.1) % 32)

theorem spriteCells_eq_map (s : State) (px py n : Nat) :
    spriteCells s px py n = (spritePixels s n).map (pixelCell px py) := rfl

/-- A sprite of at most 32 rows wraps without meeting itself, so its set bits address different cells. -/
theorem nodup_spriteCells (s : State) (px py : Nat) {n : Nat} (hn : n ≤ 32) : (spriteCells s px py n).Nodup := by
  refine (nodup_spritePixels s n).map_on fun p hp q hq hcell => ?_
  obtain ⟨hprow, hpcol⟩ := lt_of_mem_spritePixels hp
  obtain ⟨hqrow, hqcol⟩ := lt_of_mem_spritePixels hq
  obtain ⟨hx, hy⟩ := cellOf_inj (Nat.mod_lt _ (by decide)) (Nat.mod_lt _ (by decide)) hcell
  exact Prod.ext (by omega) (by omega)

theorem liveCoord_of_ne {s : State} {r : RegIdx} (hr : r ≠ vf) (hit : Bool) : liveCoord s r hit = (s.getV r).toNat :=
  if_neg hr

/-- The scan of a draw once every set bit has its cell. -/
def flipScan (cells : List Nat) (lit : Cells) (hit : Bool) : Cells × Bool :=
  match cells with
  | [] => (lit, hit)
  | c :: rest => flipScan rest (fun k => if k = c then !lit k else lit k) (hit || lit c)

theorem drawScan_eq_flipScan {s : State} {x y : RegIdx} (hx : x ≠ vf) (hy : y ≠ vf) (pixels : List (Nat × Nat))
    (lit : Cells) (hit : Bool) : drawScan s x y pixels lit hit =
      flipScan (pixels.map (pixelCell (s.getV x).toNat (s.getV y).toNat)) lit hit := by
  induction pixels generalizing lit hit with
  | nil => rfl
  | cons p rest ih =>
    unfold drawScan
    simp only [liveCoord_of_ne hx, liveCoord_of_ne hy]
    exact ih _ _

/-- Different cells are each flipped once, and each is met as it was at the start. -/
theorem flipScan_of_nodup {cells : List Nat} (h : cells.Nodup) (lit : Cells) (hit : Bool) :
    flipScan cells lit hit = (fun k => xor (lit k) (decide (k ∈ cells)), hit || cells.any lit) := by
  induction cells generalizing lit hit with
  | nil => simp [flipScan]
  | cons c rest ih =>
    obtain ⟨hnot, hrest⟩ := List.nodup_cons.1 h
    have hsame : ∀ k ∈ rest, (if k = c then !lit k else lit k) = lit k := by
      intro k hk
      rw [if_neg]
      rintro rfl
      exact hnot hk
    have hany : rest.any (fun k => if k = c then !lit k else lit k) = rest.any lit := by
      rw [Bool.eq_iff_iff, List.any_eq_true, List.any_eq_true]
      exact exists_congr fun k => and_congr_right fun hk => by rw [hsame k hk]
    unfold flipScan
    rw [ih hrest, hany, List.any_cons, Bool.or_assoc]
    refine congrArg (·, _) (funext fun k => ?_)
    by_cases hk : k = c
    · simp [hk, hnot]
    · simp [hk]

theorem toNat_nibble_le (n : Nibble) : n.toNat ≤ 32 := by
  omega

/-- What a draw with fixed coordinates leaves on the screen and in `VF` (R165 (a), (b)). -/
theorem drawn_flips {x y : RegIdx} (hx : x ≠ vf) (hy : y ≠ vf) (n : Nibble) (s : State) :
    (∀ c, (drawn x y n s).cell c =
      xor (s.cell c) (decide (c ∈ spriteCells s (s.getV x).toNat (s.getV y).toNat n.toNat))) ∧
    (drawn x y n s).getV vf = flagOf ((spriteCells s (s.getV x).toNat (s.getV y).toNat n.toNat).any s.cell) := by
  have hscan := drawn_followsScan x y n s
  rw [drawScan_eq_flipScan hx hy, ← spriteCells_eq_map, flipScan_of_nodup (nodup_spriteCells _ _ _ (toNat_nibble_le n)),
    Bool.false_or] at hscan
  exact ⟨congrFun hscan.cells, hscan.flag⟩

/-- A flag in the form of the statements. -/
theorem flagOf_any (cells : List Nat) (lit : Cells) :
    flagOf (cells.any lit) = if ∃ c ∈ cells, lit c = true then 1 else 0 := by
  by_cases h : ∃ c ∈ cells, lit c = true
  · rw [if_pos h, List.any_eq_true.2 h]
    rfl
  · rw [if_neg h, Bool.eq_false_iff.2 (mt List.any_eq_true.1 h)]
    rfl

/-- Settles O37: the sprite's cells are distinct, so each is flipped once. -/
theorem drawFlipsExactlyTheSpriteCells : Obligations.DrawFlipsExactlyTheSpriteCells := by
  intro x y n s hx hy hfits
  obtain ⟨hcells, hflag⟩ := drawn_flips hx hy n s
  exact ⟨drawn x y n s, exec_drw_fits hfits, fun c _ => hcells c, hflag.trans (flagOf_any ..)⟩

/-- The sprite is read from `I` and memory alone. -/
theorem spriteCells_congr {s t : State} (hI : t.I = s.I) (hmem : t.mem = s.mem) (px py n : Nat) :
    spriteCells t px py n = spriteCells s px py n := by
  unfold spriteCells spritePixels dataAddr State.readByte
  rw [hI, hmem]

/-- Settles O38: the second draw meets the same sprite and flips the same cells back. -/
theorem drawingTwiceRestoresTheScreen : Obligations.DrawingTwiceRestoresTheScreen := by
  intro x y n s hx hy hfits
  have hI : (drawn x y n s).I = s.I := (drawn_frame x y n s).index (by simp)
  have hmem : (drawn x y n s).mem = s.mem := (drawn_frame x y n s).memory (by simp)
  have hregs : ∀ r, r ≠ vf → (drawn x y n s).getV r = s.getV r := (drawn_followsScan x y n s).frame.registers
  obtain ⟨hcells, hflag⟩ := drawn_flips hx hy n s
  obtain ⟨hcells', hflag'⟩ := drawn_flips hx hy n (drawn x y n s)
  simp only [hregs x hx, hregs y hy, spriteCells_congr hI hmem] at hcells' hflag'
  refine ⟨drawn x y n s, drawn x y n (drawn x y n s), exec_drw_fits hfits, exec_drw_fits (by rwa [hI]), fun c _ => ?_,
    hflag'.trans (flagOf_any ..), fun hclear => ⟨?_, fun hne => ?_⟩⟩
  · rw [hcells', hcells, Bool.xor_assoc, Bool.xor_self, Bool.xor_false]
  · rw [hflag, flagOf_any, if_neg]
    rintro ⟨c, hc, hlit⟩
    cases (hclear c hc).symm.trans hlit
  · obtain ⟨c, hc⟩ := List.exists_mem_of_ne_nil _ hne
    rw [hflag', flagOf_any, if_pos]
    exact ⟨c, hc, by rw [hcells, hclear c hc, decide_eq_true hc]; rfl⟩

/-! ### The values of the flag (R21) -/

/-- Settles O45: each of the six writes a flag value, and a draw that has not faulted leaves the scan's. -/
theorem aFlagIsZeroOrOne : Obligations.AFlagIsZeroOrOne := by
  intro x y n s t herr hterr h
  obtain ⟨hx, h⟩ | h := h
  · obtain h | h | h | h | h := h <;> cases h <;> exact flagThenResult_vf_cases hx _ _ s
  · obtain ⟨-, -, rfl⟩ | ⟨-, rfl⟩ := exec_drw_cases h
    · cases hterr
    · exact (drawn_followsScan x y n s).flag ▸ flagOf_cases _

end Sys2Proof.Machine
end
